-- ==== Sys2Proof/Word.lean ====
section
/-! DEFINITION. The machine's word: the 8-bit byte (00_scope.md R6, R9). -/

namespace Sys2Proof

/-- Register contents, memory cells, opcode and operand bytes, FL: unsigned 8-bit values (R6, R9). -/
abbrev Byte := BitVec 8

/-- A register index 0..7 (10_state.md R21). -/
abbrev Reg := Fin 8

/-- R7, the stack pointer (10_state.md R22). -/
abbrev SP : Reg := 7

end Sys2Proof
end

