-- ==== Sys2Proof/Config.lean ====
section
/-! DEFINITION. The open parameters of 00_scope.md R7, as the machine's fixed configuration.
Their default values stand in Sys2Proof/Machine/Defaults.lean. -/

namespace Sys2Proof

/-- `UNINIT_READ` (R7, 10_state.md R33): what a read of a register or memory byte does that nothing has
written since reset. -/
inductive UninitRead where
  /-- raise UninitRegister or UninitMemory -/
  | fault
  /-- read as 0 -/
  | zero
deriving DecidableEq, Repr

/-- The configuration of one engine (R7): fixed for a whole run (10_state.md R32). -/
structure Config where
  /-- `SHIFTS_ENABLED`: SHL and SHR are in the dispatch table. -/
  shiftsEnabled : Bool
  /-- `UNINIT_READ`. -/
  uninitRead : UninitRead
deriving DecidableEq, Repr

end Sys2Proof
end

