-- ==== Sys2Proof/Machine/Defaults.lean ====
section
/-! DEFINITION. The default configuration and the reset values (00_scope.md R6, R7; 10_state.md R35). -/

namespace Sys2Proof.Machine

/-- The spec's defaults (R7): SHIFTS_ENABLED = true, UNINIT_READ = Fault. -/
def defaultConfig : Config := { shiftsEnabled := true, uninitRead := .fault }

/-- pc after reset (R35). -/
def resetPc : Nat := 0

/-- SP after reset (R35). -/
def resetSp : Byte := 0xF4

/-- FL after reset (R35). -/
def resetFl : Byte := 0x00

/-- DESIGN CHOICE (assumption log 2): what stands in R0..R6 under the mark 'unwritten'; R35 leaves it
unspecified.  Unsafe; no read returns it. -/
def resetUnwrittenReg : Byte := 0x00

/-- DESIGN CHOICE (assumption log 4): IR after reset; R35 leaves it unspecified and unobservable.  Unsafe. -/
def resetIr : Byte := 0x00

end Sys2Proof.Machine
end

