-- ==== Sys2Proof/Machine/State.lean ====
section
/-! DEFINITION. The machine's state, as plain data, and its value after reset (10_state.md R20..R35). -/

namespace Sys2Proof.Machine

/-- Memory as the written cells in strictly rising address order (R20, R33).  A cell is listed exactly when it
has been written since reset, so the list carries the memory's written marks (assumption log 3). -/
abbrev Memory := List Host.Cell

/-- The engine's status (00_scope.md R8, 10_state.md R28). -/
inductive Status where
  | running
  | halted
  | faulted
deriving DecidableEq, Repr

/-- A fault of the engine with the information it records (60_exceptions.md R170).  `pc` is the address of the
faulting instruction's opcode byte. -/
inductive FaultRecord where
  /-- code 1: the opcode byte is not in the dispatch table -/
  | decodeError (opcode : Byte) (pc : Nat)
  /-- code 2: MOD with a zero divisor -/
  | divisionByZero (pc : Nat)
  /-- code 3: a memory address outside 0..255 -/
  | memoryBounds (pc address : Nat)
  /-- code 4: a register-operand byte above 7 -/
  | registerBounds (pc : Nat) (value : Byte)
  /-- code 5: an implicit SP adjustment leaving 0..255; `sp` is SP before it -/
  | stackBounds (pc : Nat) (sp : Byte)
  /-- code 6: CALL's return address does not fit a byte -/
  | returnAddressRange (pc value : Nat)
  /-- code 7: a read of a register not written since reset, when UNINIT_READ = Fault -/
  | uninitRegister (pc : Nat) (reg : Reg)
  /-- code 8: a read of a memory byte not written since reset, when UNINIT_READ = Fault -/
  | uninitMemory (pc address : Nat)
deriving DecidableEq, Repr

/-- Everything the spec gives the machine (R35), and its configuration (00_scope.md R7). -/
structure State where
  /-- memory with its written marks (R20, R33) -/
  mem : Memory
  /-- R0..R7 (R21) -/
  x : Vector Byte 8
  /-- the registers' written marks (R33) -/
  xWritten : Vector Bool 8
  /-- the program counter, 0..256 (R25) -/
  pc : Nat
  /-- FL: bit 0 E, bit 1 G, bit 2 L (R26) -/
  fl : Byte
  /-- IR: the opcode byte last fetched (R30) -/
  ir : Byte
  /-- RUNNING, HALTED or FAULTED (R28) -/
  status : Status
  /-- the fault record, empty unless FAULTED (R29) -/
  fault : Option FaultRecord
  /-- the output stream, oldest value first (R31) -/
  out : List Byte
  /-- the configuration; no step changes it (R32; assumption log 1) -/
  config : Config
deriving DecidableEq, Repr

/-- Why a step stops without a next state.  The engine's own faults are not here: they are taken as next states
with status FAULTED (60_exceptions.md R171; assumption log 5). -/
inductive Fault where
  /-- Raised by `step` when status is HALTED: no step is defined (40_execution_cycle.md R80).  Safe. -/
  | noStepHalted
  /-- Raised by `step` when status is FAULTED: no step is defined (R80).  Safe. -/
  | noStepFaulted
deriving DecidableEq, Repr

/-- Why the model gives no meaning. -/
inductive Refusal where
  /-- Raised only by a rejected arm of `exec`; no arm is rejected in this model.  Safe. -/
  | notModelled (mnemonic : String)
deriving DecidableEq, Repr

/-- The state right after reset under a configuration (10_state.md R35, 70_reset_and_hazards.md R190). -/
def State.resetWith (c : Config) : State :=
  { mem := []
    x := (Vector.replicate 8 resetUnwrittenReg).set 7 resetSp
    xWritten := (Vector.replicate 8 false).set 7 true
    pc := resetPc
    fl := resetFl
    ir := resetIr
    status := .running
    fault := none
    out := []
    config := c }

/-- The state right after reset under the spec's default configuration (R7, R190). -/
def State.reset : State := State.resetWith defaultConfig

end Sys2Proof.Machine
end

