-- ==== Sys2Proof/Machine/Mem.lean ====
section
/-! DEFINITION. The 256-byte memory as a canonical list of written cells (10_state.md R20, R33; 20_memory.md R40). -/

namespace Sys2Proof.Machine

/-- What an address that is not listed holds: no value, the cell is unwritten (10_state.md R33, R35; assumption log 3). -/
def Memory.unlisted : Option Byte := none

/-- The byte a cell holds, if it has been written. -/
def Memory.lookup : Memory → Nat → Option Byte
  | [], _ => Memory.unlisted
  | (k, v) :: m, a => if k = a then some v else Memory.lookup m a

/-- Write one cell, keeping the addresses strictly rising. -/
def Memory.write : Memory → Nat → Byte → Memory
  | [], a, v => [(a, v)]
  | (k, w) :: m, a, v =>
    if a < k then (a, v) :: (k, w) :: m
    else if a = k then (a, v) :: m
    else (k, w) :: Memory.write m a v

/-- The canonical form from an address on: strictly rising addresses below 256, and no entry equal to what an
unlisted address holds. -/
def Memory.wfFrom : Nat → Memory → Bool
  | _, [] => true
  | lo, (k, v) :: m =>
    decide (lo ≤ k) && decide (k < 256) && decide (some v ≠ Memory.unlisted) && Memory.wfFrom (k + 1) m

/-- The canonical form. -/
def Memory.wf (m : Memory) : Bool := Memory.wfFrom 0 m

end Sys2Proof.Machine
end

