-- ==== Sys2Proof/Machine/Ops.lean ====
section
/-! DEFINITION. The operations every meaning is written with: the primitives of 00_scope.md R10, the memory
accesses of 20_memory.md R45 and R46, and taking a fault (60_exceptions.md R171, 40_execution_cycle.md R86). -/

namespace Sys2Proof.Machine

/-- What a machine step answers. -/
abbrev Answer := Host.Outcome State Fault Refusal

/-- A computation of one instruction on its working copy of the state: a value, or the fault it raises (R86). -/
abbrev Exec (α : Type) := Except FaultRecord α

/-! Updates of one piece of state. -/

/-- `pc <- v`. -/
def State.setPc (s : State) (v : Nat) : State := { s with pc := v }

/-- `FL <- v`. -/
def State.setFl (s : State) (v : Byte) : State := { s with fl := v }

/-- `IR <- v` (40_execution_cycle.md R81). -/
def State.setIr (s : State) (v : Byte) : State := { s with ir := v }

/-- `x[r] <- v`, which marks the register written (10_state.md R33). -/
def State.setReg (s : State) (r : Reg) (v : Byte) : State :=
  { s with x := s.x.set r v, xWritten := s.xWritten.set r true }

/-- The memory after a write. -/
def State.setMem (s : State) (m : Memory) : State := { s with mem := m }

/-- `Emit(v)`: append to the output stream (10_state.md R31). -/
def State.emit (s : State) (v : Byte) : State := { s with out := s.out ++ [v] }

/-- `status <- HALTED` (41_control_io.md R100). -/
def State.halt (s : State) : State := { s with status := .halted }

/-! Faults. -/

/-- Fault entry (60_exceptions.md R171, R172): status FAULTED and the record; nothing else changes.  There is no
return from a fault (R173): no operation clears the record, and `step` is not defined from FAULTED. -/
def takeFault (f : FaultRecord) (s : State) : State := { s with status := .faulted, fault := some f }

/-- Commit (40_execution_cycle.md R86): the working copy if no fault was raised; otherwise none of its writes, and
the fault is taken on the state the step began with. -/
def commit (s : State) (r : Exec State) : Answer :=
  match r with
  | .ok t => .next t
  | .error f => .next (takeFault f s)

/-- `if not ok: raise f`. -/
def require (ok : Bool) (f : FaultRecord) : Exec Unit := if ok then .ok () else .error f

/-! Reads and writes. -/

/-- `x[r]`: read a general register (00_scope.md R10, 10_state.md R33). -/
def readReg (s : State) (r : Reg) : Exec Byte :=
  if s.xWritten[r] then .ok s.x[r]
  else match s.config.uninitRead with
    | .fault => .error (.uninitRegister s.pc r)
    | .zero => .ok 0

/-- `MemRead(addr, 1)` (20_memory.md R45). -/
def memRead (s : State) (addr : Nat) : Exec Byte :=
  if 255 < addr then .error (.memoryBounds s.pc addr)
  else match Memory.lookup s.mem addr with
    | some v => .ok v
    | none =>
      match s.config.uninitRead with
      | .fault => .error (.uninitMemory s.pc addr)
      | .zero => .ok 0

/-- `MemWrite(addr, 1, v)` (20_memory.md R46). -/
def memWrite (s : State) (addr : Nat) (v : Byte) : Exec State :=
  if 255 < addr then .error (.memoryBounds s.pc addr)
  else .ok (s.setMem (Memory.write s.mem addr v))

/-! The implicit SP adjustments (44_stack_subroutine.md R150). -/

/-- The decrement of PUSH and CALL. -/
def decSp (s : State) : Exec State := do
  let sp ← readReg s SP
  require (decide (1 ≤ sp.toNat)) (.stackBounds s.pc sp)
  return s.setReg SP (BitVec.ofNat 8 (sp.toNat - 1))

/-- The increment of POP and RET. -/
def incSp (s : State) : Exec State := do
  let sp ← readReg s SP
  require (decide (sp.toNat + 1 ≤ 255)) (.stackBounds s.pc sp)
  return s.setReg SP (BitVec.ofNat 8 (sp.toNat + 1))

/-- Read the byte SP addresses. -/
def readTop (s : State) : Exec Byte := do
  let sp ← readReg s SP
  memRead s sp.toNat

/-- Write the byte SP addresses. -/
def writeTop (s : State) (v : Byte) : Exec State := do
  let sp ← readReg s SP
  memWrite s sp.toNat v

/-- Store bytes at consecutive addresses from `a` on; addresses above 255 do not exist and take nothing. -/
def storeBytes : Memory → Nat → List Byte → Memory
  | m, _, [] => m
  | m, a, b :: bs => storeBytes (if a < 256 then Memory.write m a b else m) (a + 1) bs

end Sys2Proof.Machine
end

