-- ==== Sys2Proof/Machine/Flags.lean ====
section
/-! DEFINITION. The flags register FL (10_state.md R26, R27) and CMP's value for it (42_alu.md R119, R120). -/

namespace Sys2Proof.Machine

/-- E, bit 0: equal. -/
def flagE (fl : Byte) : Bool := fl.getLsbD 0

/-- G, bit 1: greater-than. -/
def flagG (fl : Byte) : Bool := fl.getLsbD 1

/-- L, bit 2: less-than. -/
def flagL (fl : Byte) : Bool := fl.getLsbD 2

/-- FLvalue (R119): unsigned; less, then greater, then equal (R120); the whole byte, other bits 0. -/
def flValue (x y : Byte) : Byte :=
  if x.toNat < y.toNat then 0x04
  else if x.toNat > y.toNat then 0x02
  else 0x01

end Sys2Proof.Machine
end

