-- ==== Sys2Proof/Machine/Operands.lean ====
section
/-! DEFINITION. The operand forms (30_encoding.md R62): a register index and an immediate, each a whole byte. -/

namespace Sys2Proof.Machine

/-- A register operand (40_execution_cycle.md R84): the whole byte is the index; above 7 it raises RegisterBounds. -/
def regOperand (s : State) (v : Byte) : Exec Reg :=
  if h : v.toNat < 8 then .ok ⟨v.toNat, h⟩ else .error (.registerBounds s.pc v)

/-- LDI's immediate: the whole byte, unchanged (R62). -/
def immOperand (v : Byte) : Byte := v

end Sys2Proof.Machine
end

