-- ==== Sys2Proof/Machine/Alu.lean ====
section
/-! DEFINITION. The ALU (42_alu.md R110) and its instructions: MUL, ADD, MOD, CMP, AND, OR, XOR, NOT, SHL, SHR. -/

namespace Sys2Proof.Machine

/-- The ALU's operation tags (R110). -/
inductive AluOp where
  | add | mul | mod | and | or | xor | not | shl | shr | cmp
deriving DecidableEq, Repr

/-- The ALU's value function (R110) for an instruction at `p`: exact on natural numbers, then reduced to 8 bits
(R112, R113). -/
def alu (p : Nat) (op : AluOp) (x y : Byte) : Exec Byte :=
  match op with
  | .add => .ok (BitVec.ofNat 8 (x.toNat + y.toNat))
  | .mul => .ok (BitVec.ofNat 8 (x.toNat * y.toNat))
  | .mod => if y.toNat = 0 then .error (.divisionByZero p) else .ok (BitVec.ofNat 8 (x.toNat % y.toNat))
  | .and => .ok (x &&& y)
  | .or => .ok (x ||| y)
  | .xor => .ok (x ^^^ y)
  | .not => .ok (BitVec.ofNat 8 (255 - x.toNat))
  | .shl => .ok (BitVec.ofNat 8 (x.toNat <<< y.toNat))
  | .shr => .ok (BitVec.ofNat 8 (x.toNat >>> y.toNat))
  | .cmp => .ok (flValue x y)

/-- A two-operand ALU operation on registers (R84, R111): check both indices, read x[a] then x[b], compute. -/
def aluOperands (op : AluOp) (a b : Byte) (s : State) : Exec (Reg × Byte) := do
  let ra ← regOperand s a
  let rb ← regOperand s b
  let va ← readReg s ra
  let vb ← readReg s rb
  let v ← alu s.pc op va vb
  return (ra, v)

/-- A two-operand ALU instruction that writes x[a] (R111). -/
def aluToReg (op : AluOp) (a b : Byte) (s : State) : Exec State := do
  let (ra, v) ← aluOperands op a b s
  return (s.setReg ra v).setPc (s.pc + 3)

/-- MUL (R115). -/
def execMul (a b : Byte) (s : State) : Answer := commit s (aluToReg .mul a b s)

/-- ADD (R116). -/
def execAdd (a b : Byte) (s : State) : Answer := commit s (aluToReg .add a b s)

/-- MOD (R117). -/
def execMod (a b : Byte) (s : State) : Answer := commit s (aluToReg .mod a b s)

/-- CMP (R119): as R111, but the result is written to FL. -/
def execCmp (a b : Byte) (s : State) : Answer :=
  commit s do
    let (_, v) ← aluOperands .cmp a b s
    return (s.setFl v).setPc (s.pc + 3)

/-- AND (R122). -/
def execAnd (a b : Byte) (s : State) : Answer := commit s (aluToReg .and a b s)

/-- OR (R123). -/
def execOr (a b : Byte) (s : State) : Answer := commit s (aluToReg .or a b s)

/-- XOR (R124). -/
def execXor (a b : Byte) (s : State) : Answer := commit s (aluToReg .xor a b s)

/-- NOT (R125). -/
def execNot (a : Byte) (s : State) : Answer :=
  commit s do
    let ra ← regOperand s a
    let va ← readReg s ra
    let v ← alu s.pc .not va 0
    return (s.setReg ra v).setPc (s.pc + 2)

/-- SHL (R130). -/
def execShl (a b : Byte) (s : State) : Answer := commit s (aluToReg .shl a b s)

/-- SHR (R131). -/
def execShr (a b : Byte) (s : State) : Answer := commit s (aluToReg .shr a b s)

end Sys2Proof.Machine
end

