-- ==== Sys2Proof/Machine/Branch.lean ====
section
/-! DEFINITION. JMP, JEQ, JNE (43_branch.md). -/

namespace Sys2Proof.Machine

/-- `pc <- x[r]` (R140, R143). -/
def jumpTo (s : State) (r : Reg) : Exec State := do
  let t ← readReg s r
  return s.setPc t.toNat

/-- A conditional jump: the index is checked either way (40_execution_cycle.md R84), the register is read only when
the jump is taken (R141, R142). -/
def jumpIf (taken : Bool) (a : Byte) (s : State) : Exec State := do
  let ra ← regOperand s a
  if taken then jumpTo s ra else return s.setPc (s.pc + 2)

/-- JMP (R140). -/
def execJmp (a : Byte) (s : State) : Answer :=
  commit s do
    let ra ← regOperand s a
    jumpTo s ra

/-- JEQ (R141). -/
def execJeq (a : Byte) (s : State) : Answer := commit s (jumpIf (flagE s.fl) a s)

/-- JNE (R142). -/
def execJne (a : Byte) (s : State) : Answer := commit s (jumpIf (!flagE s.fl) a s)

end Sys2Proof.Machine
end

