-- ==== Sys2Proof/Machine/Control.lean ====
section
/-! DEFINITION. HLT, LDI, PRN (41_control_io.md). -/

namespace Sys2Proof.Machine

/-- HLT (R100). -/
def execHlt (s : State) : Answer := commit s (.ok (s.halt.setPc (s.pc + 1)))

/-- LDI (R101). -/
def execLdi (a imm : Byte) (s : State) : Answer :=
  commit s do
    let ra ← regOperand s a
    return (s.setReg ra (immOperand imm)).setPc (s.pc + 3)

/-- PRN (R102). -/
def execPrn (a : Byte) (s : State) : Answer :=
  commit s do
    let ra ← regOperand s a
    let v ← readReg s ra
    return (s.emit v).setPc (s.pc + 2)

end Sys2Proof.Machine
end

