-- ==== Sys2Proof/Machine/Stack.lean ====
section
/-! DEFINITION. PUSH, POP, CALL, RET (44_stack_subroutine.md): the statements of each rule in the written order, each
seeing the writes of the earlier ones (40_execution_cycle.md R86). -/

namespace Sys2Proof.Machine

/-- PUSH (R151): the pushed register is read after the decrement. -/
def execPush (a : Byte) (s : State) : Answer :=
  commit s do
    let ra ← regOperand s a
    let t ← decSp s
    let v ← readReg t ra
    let t ← writeTop t v
    return t.setPc (s.pc + 2)

/-- POP (R152): SP is read again after x[a] is written. -/
def execPop (a : Byte) (s : State) : Answer :=
  commit s do
    let ra ← regOperand s a
    let v ← readTop s
    let t ← incSp (s.setReg ra v)
    return t.setPc (s.pc + 2)

/-- CALL (R153): the return address is pushed before the target is read. -/
def execCall (a : Byte) (s : State) : Answer :=
  commit s do
    let ra ← regOperand s a
    let r := s.pc + 2
    let t ← decSp s
    require (decide (r ≤ 255)) (.returnAddressRange s.pc r)
    let t ← writeTop t (BitVec.ofNat 8 r)
    let v ← readReg t ra
    return t.setPc v.toNat

/-- RET (R154). -/
def execRet (s : State) : Answer :=
  commit s do
    let v ← readTop s
    let t ← incSp s
    return t.setPc v.toNat

end Sys2Proof.Machine
end

