-- ==== Sys2Proof/Syntax.lean ====
section
/-! DEFINITION. The instructions: one constructor for each row of the opcode map (30_encoding.md R63). -/

namespace Sys2Proof

/-- One instruction with its operand bytes as fetched (30_encoding.md R61, R62, R69): `a` and `b` are whole
register-index bytes, which decoding neither masks nor checks; `imm` is LDI's immediate byte. -/
inductive Instr where
  | hlt
  | ldi (a imm : Byte)
  | prn (a : Byte)
  | mul (a b : Byte)
  | add (a b : Byte)
  | mod (a b : Byte)
  | cmp (a b : Byte)
  | and (a b : Byte)
  | or (a b : Byte)
  | xor (a b : Byte)
  | not (a : Byte)
  | shl (a b : Byte)
  | shr (a b : Byte)
  | jmp (a : Byte)
  | jeq (a : Byte)
  | jne (a : Byte)
  | push (a : Byte)
  | pop (a : Byte)
  | call (a : Byte)
  | ret
deriving DecidableEq, Repr

/-- The register-operand bytes of an instruction in operand order, `a` then `b` (40_execution_cycle.md R84).
LDI's immediate is not one of them. -/
def Instr.regOperands : Instr → List Byte
  | .hlt => []
  | .ldi a _ => [a]
  | .prn a => [a]
  | .mul a b => [a, b]
  | .add a b => [a, b]
  | .mod a b => [a, b]
  | .cmp a b => [a, b]
  | .and a b => [a, b]
  | .or a b => [a, b]
  | .xor a b => [a, b]
  | .not a => [a]
  | .shl a b => [a, b]
  | .shr a b => [a, b]
  | .jmp a => [a]
  | .jeq a => [a]
  | .jne a => [a]
  | .push a => [a]
  | .pop a => [a]
  | .call a => [a]
  | .ret => []

/-- The instruction's length in bytes, the opcode included (30_encoding.md R60, R63, R68). -/
def Instr.length : Instr → Nat
  | .hlt => 1
  | .ldi _ _ => 3
  | .prn _ => 2
  | .mul _ _ => 3
  | .add _ _ => 3
  | .mod _ _ => 3
  | .cmp _ _ => 3
  | .and _ _ => 3
  | .or _ _ => 3
  | .xor _ _ => 3
  | .not _ => 2
  | .shl _ _ => 3
  | .shr _ _ => 3
  | .jmp _ => 2
  | .jeq _ => 2
  | .jne _ => 2
  | .push _ => 2
  | .pop _ => 2
  | .call _ => 2
  | .ret => 1

end Sys2Proof
end

