-- ==== Sys2Proof/WellFormed.lean ====
section
/-! DEFINITION. Which instructions a program may be written with: every register operand names one of
R0..R7 (30_encoding.md R70), and SHL and SHR only where SHIFTS_ENABLED (00_scope.md R7).
Bytes that decode to an instruction outside this set are still executed: a register operand of 8..255
raises RegisterBounds (R69). -/

namespace Sys2Proof

/-- The instruction is in the dispatch table of this configuration (10_state.md R32, 30_encoding.md R63). -/
def Instr.present (c : Config) : Instr → Bool
  | .shl _ _ => c.shiftsEnabled
  | .shr _ _ => c.shiftsEnabled
  | .hlt => true
  | .ldi _ _ => true
  | .prn _ => true
  | .mul _ _ => true
  | .add _ _ => true
  | .mod _ _ => true
  | .cmp _ _ => true
  | .and _ _ => true
  | .or _ _ => true
  | .xor _ _ => true
  | .not _ => true
  | .jmp _ => true
  | .jeq _ => true
  | .jne _ => true
  | .push _ => true
  | .pop _ => true
  | .call _ => true
  | .ret => true

/-- Every register operand is an index 0..7 (30_encoding.md R62). -/
def Instr.regsInRange (i : Instr) : Bool := i.regOperands.all fun v => v.toNat < 8

/-- A well-formed instruction of this configuration. -/
def Instr.wellFormed (c : Config) (i : Instr) : Bool := i.present c && i.regsInRange

end Sys2Proof
end

