-- ==== Sys2Proof/Decode.lean ====
section
/-! DEFINITION. Decoding by the dispatch table, and the encoder (30_encoding.md R60..R69). -/

namespace Sys2Proof

/-- What a dispatch-table entry fixes: the format, hence the length, and the instruction its operand bytes
make (R61, R64). -/
inductive Shape where
  /-- format N, 1 byte -/
  | n (i : Instr)
  /-- format R, 2 bytes: `a` -/
  | r (f : Byte → Instr)
  /-- format RR, 3 bytes: `a`, `b` -/
  | rr (f : Byte → Byte → Instr)
  /-- format RI, 3 bytes: `a`, `imm` -/
  | ri (f : Byte → Byte → Instr)

/-- The rows of R63 that stand in every configuration. -/
def coreTable : List (Byte × Shape) :=
  [(0x01, .n .hlt), (0x82, .ri .ldi), (0x47, .r .prn),
   (0xA2, .rr .mul), (0xA0, .rr .add), (0xA4, .rr .mod), (0xA7, .rr .cmp),
   (0xA8, .rr .and), (0xAA, .rr .or), (0xAB, .rr .xor), (0x69, .r .not)] ++
  [(0x54, .r .jmp), (0x55, .r .jeq), (0x56, .r .jne),
   (0x45, .r .push), (0x46, .r .pop), (0x50, .r .call), (0x11, .n .ret)]

/-- The rows of R63 that stand only when SHIFTS_ENABLED. -/
def shiftTable : List (Byte × Shape) := [(0xAC, .rr .shl), (0xAD, .rr .shr)]

/-- The dispatch table of a configuration (10_state.md R32). -/
def dispatchTable (c : Config) : List (Byte × Shape) :=
  coreTable ++ if c.shiftsEnabled then shiftTable else []

/-- The dispatcher (40_execution_cycle.md R82): exact match of the whole opcode byte (R64). -/
def dispatch (c : Config) (ir : Byte) : Option Shape :=
  ((dispatchTable c).find? fun row => row.1 == ir).map Prod.snd

/-- Why bytes do not decode. -/
inductive DecodeReject where
  /-- no byte was given -/
  | noBytes
  /-- the opcode byte is not in the dispatch table (R65) -/
  | unknownOpcode (opcode : Byte)
  /-- fewer operand bytes than the opcode's length asks for (R67) -/
  | missingOperand (opcode : Byte)
deriving DecidableEq, Repr

/-- Decode the instruction at the head of a list of bytes; answer it with the bytes after it (R67). -/
def decode (c : Config) : List Byte → Except DecodeReject (Instr × List Byte)
  | [] => .error .noBytes
  | op :: bs =>
    match dispatch c op with
    | none => .error (.unknownOpcode op)
    | some (.n i) => .ok (i, bs)
    | some (.r f) =>
      match bs with
      | a :: rest => .ok (f a, rest)
      | [] => .error (.missingOperand op)
    | some (.rr f) =>
      match bs with
      | a :: b :: rest => .ok (f a b, rest)
      | _ => .error (.missingOperand op)
    | some (.ri f) =>
      match bs with
      | a :: imm :: rest => .ok (f a imm, rest)
      | _ => .error (.missingOperand op)

/-- The bytes of an instruction in increasing address order (R61, R63; 20_memory.md R43). -/
def encode : Instr → List Byte
  | .hlt => [0x01]
  | .ldi a imm => [0x82, a, imm]
  | .prn a => [0x47, a]
  | .mul a b => [0xA2, a, b]
  | .add a b => [0xA0, a, b]
  | .mod a b => [0xA4, a, b]
  | .cmp a b => [0xA7, a, b]
  | .and a b => [0xA8, a, b]
  | .or a b => [0xAA, a, b]
  | .xor a b => [0xAB, a, b]
  | .not a => [0x69, a]
  | .shl a b => [0xAC, a, b]
  | .shr a b => [0xAD, a, b]
  | .jmp a => [0x54, a]
  | .jeq a => [0x55, a]
  | .jne a => [0x56, a]
  | .push a => [0x45, a]
  | .pop a => [0x46, a]
  | .call a => [0x50, a]
  | .ret => [0x11]

/-- The first byte of the encoding. -/
def Instr.opcode (i : Instr) : Byte := (encode i).headD 0

/-- The three bytes of a table word: byte k is bits 8k+7..8k, every bit from `nbits` up being 0. -/
def tableWordBytes (nbits w : Nat) : List Byte :=
  let v := w % 2 ^ nbits
  [BitVec.ofNat 8 v, BitVec.ofNat 8 (v / 256), BitVec.ofNat 8 (v / 65536)]

/-- The instruction the decoder reads from a table word, in the default configuration (R7). -/
def decodeTableWord (nbits w : Nat) : Option Instr :=
  match decode Machine.defaultConfig (tableWordBytes nbits w) with
  | .ok (i, _) => some i
  | .error _ => none

end Sys2Proof
end

