-- ==== Sys2Proof/Machine/Fetch.lean ====
section
/-! DEFINITION. Fetch, decode and operand fetch (40_execution_cycle.md R81, R82, R83). -/

namespace Sys2Proof.Machine

/-- Fetch (R81): MemoryBounds(p, p) when pc is above 255, UninitMemory(p, p) when the byte is unwritten; both are
`memRead`'s own (20_memory.md R45). -/
def fetchOpcode (s : State) : Exec Byte := memRead s s.pc

/-- Operand fetch (R83): only the bytes of the instruction's own length, in address order (30_encoding.md R67). -/
def fetchOperands (s : State) (sh : Shape) : Exec Instr :=
  match sh with
  | .n i => .ok i
  | .r f => do
    let op1 ← memRead s (s.pc + 1)
    return f op1
  | .rr f => do
    let op1 ← memRead s (s.pc + 1)
    let op2 ← memRead s (s.pc + 2)
    return f op1 op2
  | .ri f => do
    let op1 ← memRead s (s.pc + 1)
    let op2 ← memRead s (s.pc + 2)
    return f op1 op2

/-- Decode (R82), then operand fetch, for a fetched opcode byte. -/
def decodeAt (s : State) (op : Byte) : Exec Instr :=
  match dispatch s.config op with
  | none => .error (.decodeError op s.pc)
  | some sh => fetchOperands s sh

/-- The bytes that can be read from an address upward, at most `n` of them: what the decoder is given. -/
def codeBytes (s : State) : Nat → Nat → List Byte
  | _, 0 => []
  | a, n + 1 =>
    match memRead s a with
    | .ok b => b :: codeBytes s (a + 1) n
    | .error _ => []

end Sys2Proof.Machine
end

