-- ==== Sys2Proof/Machine/Step.lean ====
section
/-! DEFINITION. One step of the engine (40_execution_cycle.md R80..R87). -/

namespace Sys2Proof.Machine

/-- Step (R87).  From RUNNING: fetch, decode, operand fetch, execute; a fault of any phase is taken on the state
(60_exceptions.md R171).  From HALTED and FAULTED no step is defined (R80). -/
def step (s : State) : Host.Outcome State Fault Refusal :=
  match s.status with
  | .halted => .fault .noStepHalted
  | .faulted => .fault .noStepFaulted
  | .running =>
    match fetchOpcode s with
    | .error f => .next (takeFault f s)
    | .ok op =>
      match decodeAt (s.setIr op) op with
      | .error f => .next (takeFault f (s.setIr op))
      | .ok i => exec i (s.setIr op)

/-- The state with a table word placed where the next step fetches: its bytes stand at pc, pc+1, pc+2, and the
engine is RUNNING, which a fetch needs (assumption log 7).  It stands for the host's image load
(70_reset_and_hazards.md R192). -/
def State.withFetchWord (s : State) (nbits w : Nat) : State :=
  { s with mem := storeBytes s.mem s.pc (tableWordBytes nbits w), status := .running, fault := none }

end Sys2Proof.Machine
end

