-- ==== Sys2Proof/Machine/Asm.lean ====
section
/-! DEFINITION. The assembler notation of 30_encoding.md R70 and 00_scope.md R11, on lists of characters: printing,
reading, and assembling to bytes.  It has no effect on the machine (D28). -/

namespace Sys2Proof.Machine

/-- A register name: `R` and the index. -/
def printReg (v : Byte) : List Char := 'R' :: Nat.toDigits 10 v.toNat

/-- `mnemonic reg`. -/
def printR (mnemonic : String) (a : Byte) : List Char := mnemonic.toList ++ ' ' :: printReg a

/-- `mnemonic reg, reg`. -/
def printRR (mnemonic : String) (a b : Byte) : List Char := printR mnemonic a ++ ',' :: ' ' :: printReg b

/-- The text of an instruction. -/
def printAsm : Instr → List Char
  | .hlt => "HLT".toList
  | .ldi a imm => printR "LDI" a ++ ',' :: ' ' :: Nat.toDigits 10 imm.toNat
  | .prn a => printR "PRN" a
  | .mul a b => printRR "MUL" a b
  | .add a b => printRR "ADD" a b
  | .mod a b => printRR "MOD" a b
  | .cmp a b => printRR "CMP" a b
  | .and a b => printRR "AND" a b
  | .or a b => printRR "OR" a b
  | .xor a b => printRR "XOR" a b
  | .not a => printR "NOT" a
  | .shl a b => printRR "SHL" a b
  | .shr a b => printRR "SHR" a b
  | .jmp a => printR "JMP" a
  | .jeq a => printR "JEQ" a
  | .jne a => printR "JNE" a
  | .push a => printR "PUSH" a
  | .pop a => printR "POP" a
  | .call a => printR "CALL" a
  | .ret => "RET".toList

/-- White space (assumption log 10). -/
def isBlank (c : Char) : Bool := c == ' ' || c == '\t'

/-- Drop white space at both ends. -/
def trim (cs : List Char) : List Char := ((cs.dropWhile isBlank).reverse.dropWhile isBlank).reverse

/-- The pieces between commas. -/
def splitComma : List Char → List (List Char)
  | [] => [[]]
  | c :: cs =>
    match splitComma cs with
    | [] => [[c]]
    | w :: ws => if c == ',' then [] :: w :: ws else (c :: w) :: ws

/-- `reg := "R0" | ... | "R7"`. -/
def parseReg : List Char → Option Byte
  | ['R', d] => if '0' ≤ d ∧ d ≤ '7' then some (BitVec.ofNat 8 (d.toNat - '0'.toNat)) else none
  | _ => none

/-- One hexadecimal digit, upper case as R70 writes it (assumption log 10). -/
def hexDigit (c : Char) : Option Nat :=
  if '0' ≤ c ∧ c ≤ '9' then some (c.toNat - '0'.toNat)
  else if 'A' ≤ c ∧ c ≤ 'F' then some (c.toNat - 'A'.toNat + 10)
  else none

/-- A decimal number. -/
def parseDecimal (cs : List Char) : Option Nat :=
  if cs.isEmpty || cs.any (fun c => !c.isDigit) then none
  else some (cs.foldl (fun n c => n * 10 + (c.toNat - '0'.toNat)) 0)

/-- `imm := decimal 0..255 | "0x" hex 00..FF`. -/
def parseImm : List Char → Option Byte
  | ['0', 'x', h, l] => do return BitVec.ofNat 8 ((← hexDigit h) * 16 + (← hexDigit l))
  | cs => do
    let n ← parseDecimal cs
    if n ≤ 255 then some (BitVec.ofNat 8 n) else none

/-- The mnemonics that take no operand. -/
def zeroForms : List (String × Instr) := [("HLT", .hlt), ("RET", .ret)]

/-- The mnemonics that take one register. -/
def oneForms : List (String × (Byte → Instr)) :=
  [("PRN", .prn), ("NOT", .not), ("JMP", .jmp), ("JEQ", .jeq), ("JNE", .jne), ("PUSH", .push), ("POP", .pop),
   ("CALL", .call)]

/-- The mnemonics that take two registers. -/
def twoForms : List (String × (Byte → Byte → Instr)) :=
  [("MUL", .mul), ("ADD", .add), ("MOD", .mod), ("CMP", .cmp), ("AND", .and), ("OR", .or), ("XOR", .xor),
   ("SHL", .shl), ("SHR", .shr)]

/-- A mnemonic's row in one of the three lists. -/
def formOf {α : Type} (word : List Char) (forms : List (String × α)) : Option α :=
  (forms.find? fun row => row.1.toList == word).map Prod.snd

/-- Read one instruction (R70). -/
def parseAsm (line : List Char) : Option Instr :=
  let l := trim line
  let word := l.takeWhile fun c => !isBlank c
  let args := trim (l.dropWhile fun c => !isBlank c)
  match if args.isEmpty then [] else (splitComma args).map trim with
  | [] => formOf word zeroForms
  | [x] => do return (← formOf word oneForms) (← parseReg x)
  | [x, y] =>
    if word == "LDI".toList then do return .ldi (← parseReg x) (← parseImm y)
    else do return (← formOf word twoForms) (← parseReg x) (← parseReg y)
  | _ => none

/-- Assemble one instruction to its bytes (R70). -/
def assemble (line : List Char) : Option (List Byte) := (parseAsm line).map encode

end Sys2Proof.Machine
end

