-- ==== Sys2Proof/Machine/Run.lean ====
section
/-! DEFINITION. A run of the engine and its outcome (40_execution_cycle.md R88, 60_exceptions.md R179). -/

namespace Sys2Proof.Machine

/-- At most `n` steps of a run (R88): Step is repeated while status is RUNNING, and a HALTED or FAULTED state is the
end of the run. -/
def run : Nat → State → State
  | 0, s => s
  | n + 1, s =>
    match step s with
    | .next t => run n t
    | .fault _ => s
    | .refused _ => s

/-- The outcome the engine reports (R179). -/
inductive RunOutcome where
  | halted
  | faulted (f : FaultRecord)
deriving DecidableEq, Repr

/-- The outcome of a state: none while RUNNING (R88). -/
def outcome (s : State) : Option RunOutcome :=
  match s.status, s.fault with
  | .halted, _ => some .halted
  | .faulted, some f => some (.faulted f)
  | _, _ => none

end Sys2Proof.Machine
end

