-- ==== Sys2Proof/Machine/Interface.lean ====
section
/-! DEFINITION. The block's interfaces to the host (10_state.md R31, R36; 60_exceptions.md R170, R179;
70_reset_and_hazards.md R192). -/

namespace Sys2Proof.Machine

/-- The program-image load (R192): byte k to address k; an image of more than 256 bytes is refused. -/
def loadImage (bytes : List Byte) (s : State) : Option State :=
  if bytes.length ≤ 256 then some (s.setMem (storeBytes s.mem 0 bytes)) else none

/-- Reset, then load (R190, R195): the state before the first step. -/
def boot (c : Config) (bytes : List Byte) : Option State := loadImage bytes (State.resetWith c)

/-- The code a status interface reports for a fault (R170). -/
def FaultRecord.code : FaultRecord → Nat
  | .decodeError _ _ => 1
  | .divisionByZero _ => 2
  | .memoryBounds _ _ => 3
  | .registerBounds _ _ => 4
  | .stackBounds _ _ => 5
  | .returnAddressRange _ _ => 6
  | .uninitRegister _ _ => 7
  | .uninitMemory _ _ => 8

/-- The pc a fault records (R170). -/
def FaultRecord.pc : FaultRecord → Nat
  | .decodeError _ p => p
  | .divisionByZero p => p
  | .memoryBounds p _ => p
  | .registerBounds p _ => p
  | .stackBounds p _ => p
  | .returnAddressRange p _ => p
  | .uninitRegister p _ => p
  | .uninitMemory p _ => p

/-- The host's exit code for an outcome (R179), given its parameter `exit_code_of_fault` (assumption log 12). -/
def exitCode (exitCodeOfFault : Nat) : RunOutcome → Nat
  | .halted => 0
  | .faulted _ => exitCodeOfFault

/-- The text the host prints for one emitted value (R31): its decimal digits and a newline. -/
def renderValue (v : Byte) : List Char := Nat.toDigits 10 v.toNat ++ ['\n']

/-- The text the host prints for an output stream (R31). -/
def renderOutput (out : List Byte) : List Char := out.flatMap renderValue

end Sys2Proof.Machine
end

