-- ==== Sys2Proof/Safety.lean ====
section
/-! DEFINITION. What counts as a safe run, and the terms the claims are stated in. -/

namespace Sys2Proof.Machine

/-! What a read gives (10_state.md R33; 20_memory.md R45). -/

/-- Reading register `r` raises no fault. -/
abbrev Readable (s : State) (r : Reg) : Prop := s.xWritten[r] = true ∨ s.config.uninitRead = .zero

/-- What a read of register `r` gives when it raises no fault: 0 where nothing has been written. -/
def regValue (s : State) (r : Reg) : Byte := if s.xWritten[r] then s.x[r] else 0

/-- Reading the cell at `a` raises no fault. -/
abbrev CellReadable (s : State) (a : Nat) : Prop :=
  a ≤ 255 ∧ ((Memory.lookup s.mem a).isSome = true ∨ s.config.uninitRead = .zero)

/-- What a read of the cell at `a` gives when it raises no fault. -/
def cellValue (s : State) (a : Nat) : Byte := (Memory.lookup s.mem a).getD 0

/-- The operand byte that names a register. -/
def regByte (r : Reg) : Byte := BitVec.ofNat 8 r.val

/-- The state after a fault, written out (60_exceptions.md R171, R172). -/
abbrev Faulted (s : State) (f : FaultRecord) : State := { s with status := .faulted, fault := some f }

/-- The registers an instruction may write, by operand byte: the 'writes' column of 10_state.md R24. -/
def destinations : Instr → List Byte
  | .hlt => []
  | .ldi a _ => [a]
  | .prn _ => []
  | .mul a _ => [a]
  | .add a _ => [a]
  | .mod a _ => [a]
  | .cmp _ _ => []
  | .and a _ => [a]
  | .or a _ => [a]
  | .xor a _ => [a]
  | .not a => [a]
  | .shl a _ => [a]
  | .shr a _ => [a]
  | .jmp _ => []
  | .jeq _ => []
  | .jne _ => []
  | .push _ => [7]
  | .pop a => [a, 7]
  | .call _ => [7]
  | .ret => [7]

/-- JMP, JEQ, JNE, CALL, RET: the instructions that may set pc directly (40_execution_cycle.md R89). -/
def setsPc : Instr → Bool
  | .jmp _ => true
  | .jeq _ => true
  | .jne _ => true
  | .call _ => true
  | .ret => true
  | .hlt => false
  | .ldi _ _ => false
  | .prn _ => false
  | .mul _ _ => false
  | .add _ _ => false
  | .mod _ _ => false
  | .cmp _ _ => false
  | .and _ _ => false
  | .or _ _ => false
  | .xor _ _ => false
  | .not _ => false
  | .shl _ _ => false
  | .shr _ _ => false
  | .push _ => false
  | .pop _ => false

/-- The ALU instructions (42_alu.md R110). -/
def isAlu : Instr → Bool
  | .mul _ _ => true
  | .add _ _ => true
  | .mod _ _ => true
  | .cmp _ _ => true
  | .and _ _ => true
  | .or _ _ => true
  | .xor _ _ => true
  | .not _ => true
  | .shl _ _ => true
  | .shr _ _ => true
  | .hlt => false
  | .ldi _ _ => false
  | .prn _ => false
  | .jmp _ => false
  | .jeq _ => false
  | .jne _ => false
  | .push _ => false
  | .pop _ => false
  | .call _ => false
  | .ret => false

/-- The illegal opcode bytes as 30_encoding.md R65 writes them out, as closed ranges. -/
def illegalRanges (c : Config) : List (Nat × Nat) :=
  [(0x00, 0x00), (0x02, 0x10), (0x12, 0x44), (0x48, 0x4F), (0x51, 0x53), (0x57, 0x68), (0x6A, 0x81)] ++
  [(0x83, 0x9F), (0xA1, 0xA1), (0xA3, 0xA3), (0xA5, 0xA5), (0xA6, 0xA6), (0xA9, 0xA9), (0xAE, 0xFF)] ++
  if c.shiftsEnabled then [] else [(0xAC, 0xAC), (0xAD, 0xAD)]

/-- The byte is one of R65's illegal bytes. -/
def illegalOpcode (c : Config) (op : Byte) : Bool :=
  (illegalRanges c).any fun r => decide (r.1 ≤ op.toNat) && decide (op.toNat ≤ r.2)

/-- The invariant of the machine: what every reachable state satisfies. -/
structure MachineInv (s : State) : Prop where
  /-- memory is in its canonical form, inside 0..255 (10_state.md R20) -/
  memory : Memory.wf s.mem = true
  /-- pc is in 0..256 (R25) -/
  pcRange : s.pc ≤ 256
  /-- FL is 0x00, 0x01, 0x02 or 0x04 (R27) -/
  flags : s.fl = 0x00 ∨ s.fl = 0x01 ∨ s.fl = 0x02 ∨ s.fl = 0x04
  /-- SP is written (R33: at reset R7 is written) -/
  spWritten : s.xWritten[SP] = true
  /-- the fault record is empty exactly while RUNNING or HALTED (R29) -/
  record : s.fault.isSome = true ↔ s.status = .faulted
  /-- the pc a fault records is the pc the engine stopped at (60_exceptions.md R170, R172) -/
  recordPc : ∀ f, s.fault = some f → f.pc = s.pc

/-- A step that ends in no fault of the engine. -/
def StepsSafely (s : State) : Prop := ∃ t, step s = .next t ∧ t.status ≠ .faulted

/-- `t` is reached from `s` by steps. -/
inductive Reaches : State → State → Prop where
  | refl (s : State) : Reaches s s
  | tail {s t u : State} : Reaches s t → step t = .next u → Reaches s u

/-- The state with 0 in place of whatever stands in each unwritten register. -/
def forgetUnwritten (s : State) : State := { s with x := Vector.ofFn fun r => regValue s r }

/-- The state under UNINIT_READ = Zero. -/
def withUninitZero (s : State) : State := { s with config := { s.config with uninitRead := .zero } }

/-- A two-operand ALU instruction that writes x[a] with `f x[a] x[b]` (42_alu.md R111), for every pair of registers:
where it completes, with the whole next state; and its two read faults. -/
def AluRule (mk : Byte → Byte → Instr) (f : Nat → Nat → Nat) : Prop :=
  ∀ (s : State) (a b : Reg),
    (Readable s a → Readable s b →
      exec (mk (regByte a) (regByte b)) s =
        .next { s with
          x := s.x.set a (BitVec.ofNat 8 (f (regValue s a).toNat (regValue s b).toNat))
          xWritten := s.xWritten.set a true
          pc := s.pc + 3 }) ∧
    (¬ Readable s a → exec (mk (regByte a) (regByte b)) s = .next (Faulted s (.uninitRegister s.pc a))) ∧
    (Readable s a → ¬ Readable s b →
      exec (mk (regByte a) (regByte b)) s = .next (Faulted s (.uninitRegister s.pc b)))

end Sys2Proof.Machine
end

