-- ==== Sys2Proof/Certificates/Slice0/Obligations.lean ====
section
/-! DEFINITION. The statements for the provers.  Each docstring names the rules of spec/ it formalises.
A register operand in range is written `regByte r`: the byte with the register's index.  `Faulted s f` is the state `s`
with status FAULTED and the record `f`, nothing else changed; that IR, too, stays where an instruction's own rule faults is
the model's choice (assumption log 4), no rule of the spec. -/

open Sys2Proof Sys2Proof.Machine

/-! ## Reset and image load -/

/-- 10_state.md R35, 70_reset_and_hazards.md R190, R191, for every configuration: every value the spec gives for reset;
and `State.reset` is reset under the defaults of 00_scope.md R7.  What stands in an unwritten register, and IR, are the
model's choice (assumption log 2, 4) and are not stated. -/
def Obligations.ResetHasTheSpecifiedValues : Prop :=
  State.reset = State.resetWith { shiftsEnabled := true, uninitRead := .fault } ∧
  ∀ c : Config,
    let s := State.resetWith c
    s.pc = 0 ∧ s.x[7] = 0xF4 ∧ s.xWritten[7] = true ∧ (∀ r : Reg, r ≠ 7 → s.xWritten[r] = false) ∧ s.fl = 0x00 ∧
      s.status = .running ∧ s.fault = none ∧ (∀ a, Memory.lookup s.mem a = none) ∧ s.out = [] ∧ s.config = c

/-- R192 after R190: an image of at most 256 bytes stands at addresses 0..n-1, every other cell is unwritten, and every
other piece of state has its reset value; a longer image is refused. -/
def Obligations.BootLoadsTheImageAtZero : Prop :=
  ∀ (c : Config) (bytes : List Byte),
    (256 < bytes.length → boot c bytes = none) ∧
    (bytes.length ≤ 256 → ∃ s, boot c bytes = some s ∧
      (∀ a, Memory.lookup s.mem a = bytes[a]?) ∧
      s.pc = 0 ∧ s.x[7] = 0xF4 ∧ s.xWritten[7] = true ∧ (∀ r : Reg, r ≠ 7 → s.xWritten[r] = false) ∧ s.fl = 0x00 ∧
      s.status = .running ∧ s.fault = none ∧ s.out = [] ∧ s.config = c)

/-- R194: with an empty image the first fetch faults, by UNINIT_READ. -/
def Obligations.EmptyImageFaultsAtTheFirstFetch : Prop :=
  ∀ c : Config, ∃ s t, boot c [] = some s ∧ step s = .next t ∧ t.status = .faulted ∧
    (c.uninitRead = .fault → t.fault = some (.uninitMemory 0 0)) ∧
    (c.uninitRead = .zero → t.fault = some (.decodeError 0x00 0))

/-! ## Decoding -/

/-- 30_encoding.md R60..R69: bytes decode to an instruction exactly when they are its encoding, followed by the bytes left
over, and the configuration has it. -/
def Obligations.DecodeAndEncodeAgree : Prop :=
  ∀ (c : Config) (bs rest : List Byte) (i : Instr),
    decode c bs = .ok (i, rest) ↔ i.present c = true ∧ bs = encode i ++ rest

/-- R63: words written out from the opcode map decode to the instructions they stand for. -/
def Obligations.OpcodeMapWordsDecode : Prop :=
  decodeTableWord 24 0b00001000_00000000_10000010 = some (.ldi 0 8) ∧
  decodeTableWord 16 0b00000111_01000111 = some (.prn 7) ∧
  decodeTableWord 24 0b00000001_00000000_10100010 = some (.mul 0 1) ∧
  decodeTableWord 24 0b00000010_00000011_10101101 = some (.shr 3 2) ∧
  decodeTableWord 16 0b00000011_01010101 = some (.jeq 3) ∧
  decodeTableWord 16 0b00000010_01010000 = some (.call 2) ∧
  decodeTableWord 8 0b00010001 = some .ret

/-- R65: a byte is illegal exactly when it is one of the bytes written out there, 236 of them with the shifts and 238
without; fetching one raises DecodeError(opcode, pc).  (IR, `v`, is left open.) -/
def Obligations.IllegalOpcodesRaiseDecodeError : Prop :=
  (∀ (c : Config) (op : Byte) (rest : List Byte),
    (decode c (op :: rest) = .error (.unknownOpcode op) ↔ illegalOpcode c op = true)) ∧
  (∀ c : Config, ((List.range 256).filter fun n => illegalOpcode c (BitVec.ofNat 8 n)).length =
    if c.shiftsEnabled then 236 else 238) ∧
  ∀ s : State, s.status = .running → CellReadable s s.pc → illegalOpcode s.config (cellValue s s.pc) = true →
    ∃ v, step s = .next (Faulted { s with ir := v } (.decodeError (cellValue s s.pc) s.pc))

/-! ## The step -/

/-- 40_execution_cycle.md R82, R83, R85: where the bytes at pc decode, a RUNNING step is the instruction's meaning, with
the opcode byte in IR.  That IR keeps that byte after the step, also where `exec` then faults, is the model's choice
(assumption log 4): R30 calls IR internal to a step. -/
def Obligations.StepRunsTheDecodedInstruction : Prop :=
  ∀ (s : State) (i : Instr) (rest : List Byte), s.status = .running →
    decode s.config (codeBytes s s.pc 3) = .ok (i, rest) → step s = exec i { s with ir := i.opcode }

/-- R81: MemoryBounds(p, p) beyond 255, UninitMemory(p, p) at an unwritten byte; otherwise IR takes the byte at p (said
where the step raises no fault).  That IR still holds it in the next state is the model's choice (assumption log 4): R30
calls IR internal to a step. -/
def Obligations.FetchReadsTheOpcodeByte : Prop :=
  ∀ s : State, s.status = .running →
    (255 < s.pc → step s = .next (Faulted s (.memoryBounds s.pc s.pc))) ∧
    (s.pc ≤ 255 → ¬ CellReadable s s.pc → step s = .next (Faulted s (.uninitMemory s.pc s.pc))) ∧
    (CellReadable s s.pc → ∃ t, step s = .next t ∧ (t.status ≠ .faulted → t.ir = cellValue s s.pc))

/-- R83: the operand bytes are read in address order, only those of the instruction's length; the first that lies beyond
255, or is unwritten, raises its fault; where all can be read, the instruction runs with exactly those bytes.  IR after a
fault of the operand fetch, `v`, is left open; that IR keeps the opcode byte through `exec`, also where `exec` faults, is the
model's choice (assumption log 4). -/
def Obligations.OperandBytesAreReadInOrder : Prop :=
  ∀ (s : State) (i : Instr), s.status = .running → i.present s.config = true → CellReadable s s.pc →
    cellValue s s.pc = i.opcode →
    (∀ k, 1 ≤ k → k < i.length → (∀ j, 1 ≤ j → j < k → CellReadable s (s.pc + j)) →
      (255 < s.pc + k → ∃ v, step s = .next (Faulted { s with ir := v } (.memoryBounds s.pc (s.pc + k)))) ∧
      (s.pc + k ≤ 255 → ¬ CellReadable s (s.pc + k) →
        ∃ v, step s = .next (Faulted { s with ir := v } (.uninitMemory s.pc (s.pc + k))))) ∧
    ((∀ k, k < i.length → CellReadable s (s.pc + k) ∧ (encode i)[k]? = some (cellValue s (s.pc + k))) →
      step s = exec i { s with ir := i.opcode })

/-- R84: the first register operand above 7, `a` before `b`, raises RegisterBounds(p, value), whatever the registers hold
and whether or not a jump is taken. -/
def Obligations.RegisterBoundsComesBeforeAnyRead : Prop :=
  ∀ (i : Instr) (s : State) (v : Byte), i.regOperands.find? (fun w => decide (7 < w.toNat)) = some v →
    exec i s = .next (Faulted s (.registerBounds s.pc v))

/-- 00_scope.md R8, R80; 60_exceptions.md R173: HALTED and FAULTED are terminal. -/
def Obligations.TerminalStatesTakeNoStep : Prop :=
  ∀ s : State, (s.status = .halted → step s = .fault .noStepHalted) ∧
    (s.status = .faulted → step s = .fault .noStepFaulted)

/-- From RUNNING a step always answers a next state: no instruction, and no byte in memory, stops the model. -/
def Obligations.RunningStepsAlwaysAnswer : Prop :=
  ∀ s : State, s.status = .running → ∃ t, step s = .next t

/-- R171, R172: the state after a fault is the state before the step plus status FAULTED and the fault record, whose pc is
that state's.  (IR, `v`, is left open.) -/
def Obligations.FaultsArePrecise : Prop :=
  ∀ s t : State, step s = .next t → t.status = .faulted →
    ∃ f v, t = Faulted { s with ir := v } f ∧ f.pc = s.pc

/-! ## Invariants -/

/-- Memory in 0..255 and canonical, pc in 0..256 (10_state.md R25), FL one of four values (R27), SP written (R33), the fault
record empty exactly while not FAULTED (R29) with its own pc: every step keeps all of it. -/
def Obligations.StepKeepsTheMachineWellFormed : Prop :=
  ∀ s t : State, MachineInv s → step s = .next t → MachineInv t

/-- The invariant holds at reset in every configuration. -/
def Obligations.ResetIsWellFormed : Prop := ∀ c : Config, MachineInv (State.resetWith c)

/-- The invariant holds before the first step of every image that loads. -/
def Obligations.BootIsWellFormed : Prop :=
  ∀ (c : Config) (bytes : List Byte) (s : State), boot c bytes = some s → MachineInv s

/-! ## HLT, LDI, PRN -/

/-- 41_control_io.md R100. -/
def Obligations.HltHaltsAndAdvances : Prop :=
  encode .hlt = [0x01] ∧ ∀ s : State, exec .hlt s = .next { s with status := .halted, pc := s.pc + 1 }

/-- R101. -/
def Obligations.LdiLoadsTheImmediate : Prop :=
  ∀ (s : State) (a : Reg) (imm : Byte),
    encode (.ldi (regByte a) imm) = [0x82, regByte a, imm] ∧
    exec (.ldi (regByte a) imm) s =
      .next { s with x := s.x.set a imm, xWritten := s.xWritten.set a true, pc := s.pc + 3 }

/-- R102. -/
def Obligations.PrnEmitsTheRegister : Prop :=
  ∀ (s : State) (a : Reg),
    encode (.prn (regByte a)) = [0x47, regByte a] ∧
    (Readable s a → exec (.prn (regByte a)) s = .next { s with out := s.out ++ [regValue s a], pc := s.pc + 2 }) ∧
    (¬ Readable s a → exec (.prn (regByte a)) s = .next (Faulted s (.uninitRegister s.pc a)))

/-! ## ALU -/

/-- 42_alu.md R115, R116: products and sums modulo 256. -/
def Obligations.MulAndAddWrapModulo256 : Prop :=
  (∀ a b, encode (.mul a b) = [0xA2, a, b]) ∧ AluRule .mul (fun x y => x * y % 256) ∧
  (∀ a b, encode (.add a b) = [0xA0, a, b]) ∧ AluRule .add (fun x y => (x + y) % 256)

/-- R122, R123, R124: AND, OR, XOR on whole 8-bit values. -/
def Obligations.AndOrXorCombineTheRegisters : Prop :=
  (∀ a b, encode (.and a b) = [0xA8, a, b]) ∧ AluRule .and (fun x y => x &&& y) ∧
  (∀ a b, encode (.or a b) = [0xAA, a, b]) ∧ AluRule .or (fun x y => x ||| y) ∧
  (∀ a b, encode (.xor a b) = [0xAB, a, b]) ∧ AluRule .xor (fun x y => x ^^^ y)

/-- R121: bit k of a bitwise result depends only on bit k of the operands. -/
def Obligations.BitwiseResultsAreBitByBit : Prop :=
  ∀ (s : State) (a b : Reg) (k : Nat), k < 8 → Readable s a → Readable s b →
    (∃ t, exec (.and (regByte a) (regByte b)) s = .next t ∧
      t.x[a].getLsbD k = ((regValue s a).getLsbD k && (regValue s b).getLsbD k)) ∧
    (∃ t, exec (.or (regByte a) (regByte b)) s = .next t ∧
      t.x[a].getLsbD k = ((regValue s a).getLsbD k || (regValue s b).getLsbD k)) ∧
    (∃ t, exec (.xor (regByte a) (regByte b)) s = .next t ∧
      t.x[a].getLsbD k = ((regValue s a).getLsbD k ^^ (regValue s b).getLsbD k)) ∧
    (∃ t, exec (.not (regByte a)) s = .next t ∧ t.x[a].getLsbD k = !(regValue s a).getLsbD k)

/-- R130, R131: shifts by the whole value of x[b], 0 from 8 on, SHR logical; without SHIFTS_ENABLED the two bytes raise
DecodeError.  (IR after that fault, `v`, is left open.) -/
def Obligations.ShiftsUseTheWholeAmount : Prop :=
  (∀ a b, encode (.shl a b) = [0xAC, a, b]) ∧ AluRule .shl (fun x y => x * 2 ^ y % 256) ∧
  (∀ a b, encode (.shr a b) = [0xAD, a, b]) ∧ AluRule .shr (fun x y => x / 2 ^ y) ∧
  ∀ s : State, s.status = .running → s.config.shiftsEnabled = false → CellReadable s s.pc →
    (cellValue s s.pc = 0xAC → ∃ v, step s = .next (Faulted { s with ir := v } (.decodeError 0xAC s.pc))) ∧
    (cellValue s s.pc = 0xAD → ∃ v, step s = .next (Faulted { s with ir := v } (.decodeError 0xAD s.pc)))

/-- R117: the unsigned remainder; a zero divisor raises DivisionByZero(p), after the two reads. -/
def Obligations.ModTakesTheUnsignedRemainder : Prop :=
  ∀ (s : State) (a b : Reg),
    encode (.mod (regByte a) (regByte b)) = [0xA4, regByte a, regByte b] ∧
    (Readable s a → Readable s b → regValue s b ≠ 0 →
      exec (.mod (regByte a) (regByte b)) s =
        .next { s with
          x := s.x.set a (BitVec.ofNat 8 ((regValue s a).toNat % (regValue s b).toNat))
          xWritten := s.xWritten.set a true
          pc := s.pc + 3 }) ∧
    (Readable s a → Readable s b → regValue s b = 0 →
      exec (.mod (regByte a) (regByte b)) s = .next (Faulted s (.divisionByZero s.pc))) ∧
    (¬ Readable s a → exec (.mod (regByte a) (regByte b)) s = .next (Faulted s (.uninitRegister s.pc a))) ∧
    (Readable s a → ¬ Readable s b →
      exec (.mod (regByte a) (regByte b)) s = .next (Faulted s (.uninitRegister s.pc b)))

/-- R119: CMP writes the whole FL, unsigned, and no register. -/
def Obligations.CmpWritesTheWholeFlagsRegister : Prop :=
  ∀ (s : State) (a b : Reg),
    encode (.cmp (regByte a) (regByte b)) = [0xA7, regByte a, regByte b] ∧
    (Readable s a → Readable s b →
      exec (.cmp (regByte a) (regByte b)) s =
        .next { s with
          fl := if (regValue s a).toNat < (regValue s b).toNat then 0x04
            else if (regValue s a).toNat > (regValue s b).toNat then 0x02 else 0x01
          pc := s.pc + 3 }) ∧
    (¬ Readable s a → exec (.cmp (regByte a) (regByte b)) s = .next (Faulted s (.uninitRegister s.pc a))) ∧
    (Readable s a → ¬ Readable s b →
      exec (.cmp (regByte a) (regByte b)) s = .next (Faulted s (.uninitRegister s.pc b)))

/-- 10_state.md R26, R27; R120: after CMP bit 0 says equal, bit 1 greater, bit 2 less, exactly one of them is set, and bits
3..7 are 0. -/
def Obligations.CmpSetsExactlyOneFlagBit : Prop :=
  ∀ (s : State) (a b : Reg), Readable s a → Readable s b →
    ∃ t, exec (.cmp (regByte a) (regByte b)) s = .next t ∧
      (t.fl.getLsbD 0 = true ↔ regValue s a = regValue s b) ∧
      (t.fl.getLsbD 1 = true ↔ regValue s b < regValue s a) ∧
      (t.fl.getLsbD 2 = true ↔ regValue s a < regValue s b) ∧
      (∃ k, t.fl.getLsbD k = true ∧ ∀ j, t.fl.getLsbD j = true → j = k)

/-- R125. -/
def Obligations.NotComplementsTheRegister : Prop :=
  ∀ (s : State) (a : Reg),
    encode (.not (regByte a)) = [0x69, regByte a] ∧
    (Readable s a →
      exec (.not (regByte a)) s =
        .next { s with
          x := s.x.set a (BitVec.ofNat 8 (255 - (regValue s a).toNat))
          xWritten := s.xWritten.set a true
          pc := s.pc + 2 }) ∧
    (¬ Readable s a → exec (.not (regByte a)) s = .next (Faulted s (.uninitRegister s.pc a)))

/-! ## Jumps -/

/-- 43_branch.md R140. -/
def Obligations.JmpJumpsToTheRegister : Prop :=
  ∀ (s : State) (a : Reg),
    encode (.jmp (regByte a)) = [0x54, regByte a] ∧
    (Readable s a → exec (.jmp (regByte a)) s = .next { s with pc := (regValue s a).toNat }) ∧
    (¬ Readable s a → exec (.jmp (regByte a)) s = .next (Faulted s (.uninitRegister s.pc a)))

/-- R141, R142: JEQ jumps when E is set and JNE when it is clear; the register is read only when the jump is taken; a
register operand above 7 raises RegisterBounds either way. -/
def Obligations.ConditionalJumpsFollowE : Prop :=
  (∀ (s : State) (a : Reg),
    encode (.jeq (regByte a)) = [0x55, regByte a] ∧ encode (.jne (regByte a)) = [0x56, regByte a] ∧
    (s.fl.getLsbD 0 = true →
      (Readable s a → exec (.jeq (regByte a)) s = .next { s with pc := (regValue s a).toNat }) ∧
      (¬ Readable s a → exec (.jeq (regByte a)) s = .next (Faulted s (.uninitRegister s.pc a))) ∧
      exec (.jne (regByte a)) s = .next { s with pc := s.pc + 2 }) ∧
    (s.fl.getLsbD 0 = false →
      (Readable s a → exec (.jne (regByte a)) s = .next { s with pc := (regValue s a).toNat }) ∧
      (¬ Readable s a → exec (.jne (regByte a)) s = .next (Faulted s (.uninitRegister s.pc a))) ∧
      exec (.jeq (regByte a)) s = .next { s with pc := s.pc + 2 })) ∧
  ∀ (s : State) (v : Byte), 7 < v.toNat →
    exec (.jeq v) s = .next (Faulted s (.registerBounds s.pc v)) ∧
    exec (.jne v) s = .next (Faulted s (.registerBounds s.pc v))

/-! ## Stack and subroutines.  The premise that SP is written is part of the invariant (`MachineInv.spWritten`). -/

/-- 44_stack_subroutine.md R151: the stored address is SP - 1; PUSH R7 pushes the decremented SP. -/
def Obligations.PushStoresBelowSp : Prop :=
  ∀ (s : State) (a : Reg), s.xWritten[SP] = true →
    encode (.push (regByte a)) = [0x45, regByte a] ∧
    (1 ≤ (regValue s SP).toNat → (a = SP ∨ Readable s a) →
      ∃ t, exec (.push (regByte a)) s = .next t ∧
        t = { s with
          x := s.x.set 7 (regValue s SP - 1), xWritten := s.xWritten.set 7 true, pc := s.pc + 2, mem := t.mem } ∧
        Memory.lookup t.mem ((regValue s SP).toNat - 1) =
          some (if a = SP then regValue s SP - 1 else regValue s a) ∧
        ∀ addr, addr ≠ (regValue s SP).toNat - 1 → Memory.lookup t.mem addr = Memory.lookup s.mem addr) ∧
    (regValue s SP = 0 → exec (.push (regByte a)) s = .next (Faulted s (.stackBounds s.pc 0))) ∧
    (1 ≤ (regValue s SP).toNat → a ≠ SP → ¬ Readable s a →
      exec (.push (regByte a)) s = .next (Faulted s (.uninitRegister s.pc a)))

/-- R152: the byte SP addresses goes to x[a], then the SP that x[7] now holds is incremented; POP R7 leaves the popped
value plus 1. -/
def Obligations.PopLoadsFromSp : Prop :=
  ∀ (s : State) (a : Reg), s.xWritten[SP] = true →
    encode (.pop (regByte a)) = [0x46, regByte a] ∧
    (CellReadable s (regValue s SP).toNat →
      (a ≠ SP → (regValue s SP).toNat < 255 →
        exec (.pop (regByte a)) s =
          .next { s with
            x := (s.x.set a (cellValue s (regValue s SP).toNat)).set 7 (regValue s SP + 1)
            xWritten := (s.xWritten.set a true).set 7 true
            pc := s.pc + 2 }) ∧
      (a ≠ SP → regValue s SP = 255 → exec (.pop (regByte a)) s = .next (Faulted s (.stackBounds s.pc 255))) ∧
      (a = SP → (cellValue s (regValue s SP).toNat).toNat < 255 →
        exec (.pop (regByte a)) s =
          .next { s with
            x := s.x.set 7 (cellValue s (regValue s SP).toNat + 1)
            xWritten := s.xWritten.set 7 true
            pc := s.pc + 2 }) ∧
      (a = SP → cellValue s (regValue s SP).toNat = 255 →
        exec (.pop (regByte a)) s = .next (Faulted s (.stackBounds s.pc 255)))) ∧
    (¬ CellReadable s (regValue s SP).toNat →
      exec (.pop (regByte a)) s = .next (Faulted s (.uninitMemory s.pc (regValue s SP).toNat)))

/-- R153: the return address p + 2 is stored at SP - 1 before the target is read; CALL R7 jumps to the decremented SP.
The operand fetch of a CALL needs p + 1 <= 255, so a return address above 255 is 256 there. -/
def Obligations.CallPushesTheReturnAddress : Prop :=
  ∀ (s : State) (a : Reg), s.xWritten[SP] = true →
    encode (.call (regByte a)) = [0x50, regByte a] ∧
    (1 ≤ (regValue s SP).toNat → s.pc + 2 ≤ 255 → (a = SP ∨ Readable s a) →
      ∃ t, exec (.call (regByte a)) s = .next t ∧
        t = { s with
          x := s.x.set 7 (regValue s SP - 1), xWritten := s.xWritten.set 7 true, mem := t.mem
          pc := if a = SP then (regValue s SP).toNat - 1 else (regValue s a).toNat } ∧
        Memory.lookup t.mem ((regValue s SP).toNat - 1) = some (BitVec.ofNat 8 (s.pc + 2)) ∧
        ∀ addr, addr ≠ (regValue s SP).toNat - 1 → Memory.lookup t.mem addr = Memory.lookup s.mem addr) ∧
    (regValue s SP = 0 → exec (.call (regByte a)) s = .next (Faulted s (.stackBounds s.pc 0))) ∧
    (1 ≤ (regValue s SP).toNat → 255 < s.pc + 2 →
      exec (.call (regByte a)) s = .next (Faulted s (.returnAddressRange s.pc (s.pc + 2)))) ∧
    (1 ≤ (regValue s SP).toNat → s.pc + 2 ≤ 255 → a ≠ SP → ¬ Readable s a →
      exec (.call (regByte a)) s = .next (Faulted s (.uninitRegister s.pc a)))

/-- R154. -/
def Obligations.RetPopsThePc : Prop :=
  encode .ret = [0x11] ∧
  ∀ s : State, s.xWritten[SP] = true →
    (CellReadable s (regValue s SP).toNat → (regValue s SP).toNat < 255 →
      exec .ret s =
        .next { s with
          x := s.x.set 7 (regValue s SP + 1)
          xWritten := s.xWritten.set 7 true
          pc := (cellValue s (regValue s SP).toNat).toNat }) ∧
    (CellReadable s (regValue s SP).toNat → regValue s SP = 255 →
      exec .ret s = .next (Faulted s (.stackBounds s.pc 255))) ∧
    (¬ CellReadable s (regValue s SP).toNat →
      exec .ret s = .next (Faulted s (.uninitMemory s.pc (regValue s SP).toNat)))

/-- R155: PUSH then POP to another register moves the value and restores SP; CALL then RET comes back to p + 2 and restores
SP. -/
def Obligations.StackRoundTrips : Prop :=
  ∀ s : State, (∀ r : Reg, s.xWritten[r] = true) → 1 ≤ (regValue s SP).toNat →
    (∀ a b : Reg, a ≠ SP → b ≠ SP →
      ∃ t u, exec (.push (regByte a)) s = .next t ∧ exec (.pop (regByte b)) t = .next u ∧
        u.x[b] = s.x[a] ∧ u.x[7] = s.x[7]) ∧
    (s.pc ≤ 253 → ∀ a : Reg,
      ∃ t u, exec (.call (regByte a)) s = .next t ∧ exec .ret t = .next u ∧ u.pc = s.pc + 2 ∧ u.x[7] = s.x[7])

/-- 20_memory.md R52: for every PUSH and CALL that completes, the byte it writes is the byte a later read at that address
gives, and the very next fetch where pc comes to stand there: the next instruction's address for a PUSH, the jump target for
a CALL (always so for CALL R7; for another register where it holds SP - 1). -/
def Obligations.StackStoreIsFetchedNext : Prop :=
  ∀ (s : State) (a : Reg), s.xWritten[SP] = true → 1 ≤ (regValue s SP).toNat → (a = SP ∨ Readable s a) →
    (∃ t, exec (.push (regByte a)) s = .next t ∧
      memRead t ((regValue s SP).toNat - 1) = .ok (if a = SP then regValue s SP - 1 else regValue s a) ∧
      (s.pc + 2 = (regValue s SP).toNat - 1 →
        fetchOpcode t = .ok (if a = SP then regValue s SP - 1 else regValue s a))) ∧
    (s.pc + 2 ≤ 255 →
      ∃ t, exec (.call (regByte a)) s = .next t ∧
        memRead t ((regValue s SP).toNat - 1) = .ok (BitVec.ofNat 8 (s.pc + 2)) ∧
        (a = SP ∨ (regValue s a).toNat = (regValue s SP).toNat - 1 →
          fetchOpcode t = .ok (BitVec.ofNat 8 (s.pc + 2))))

/-! ## Frames, for every instruction -/

/-- 10_state.md R24, the 'writes' column: no register outside it changes, nor its written mark. -/
def Obligations.OnlyDestinationRegistersChange : Prop :=
  ∀ (i : Instr) (s t : State), exec i s = .next t →
    ∀ r : Reg, regByte r ∉ destinations i → t.x[r] = s.x[r] ∧ t.xWritten[r] = s.xWritten[r]

/-- R20, R24: every byte of memory reads as before, but the byte at SP - 1 for PUSH and CALL. -/
def Obligations.OnlyPushAndCallWriteMemory : Prop :=
  ∀ (i : Instr) (s t : State), exec i s = .next t →
    ∀ addr, ((∀ a, i ≠ .push a) ∧ (∀ a, i ≠ .call a)) ∨ addr ≠ (regValue s SP).toNat - 1 →
      Memory.lookup t.mem addr = Memory.lookup s.mem addr

/-- R26, R28, R31, R32: only CMP writes FL, only PRN emits, only HLT halts; the fault record changes only with a fault; IR
and the configuration never change inside an instruction (of IR this is the model's choice, assumption log 4). -/
def Obligations.OnlyTheOwnerChangesOtherState : Prop :=
  ∀ (i : Instr) (s t : State), exec i s = .next t →
    ((∀ a b, i ≠ .cmp a b) → t.fl = s.fl) ∧
    ((∀ a, i ≠ .prn a) → t.out = s.out) ∧
    ((t.status = .faulted ∧ ∃ f, t.fault = some f ∧ f.pc = s.pc) ∨
      (t.fault = s.fault ∧ t.status = if i = .hlt then .halted else s.status)) ∧
    t.ir = s.ir ∧ t.config = s.config

/-- 40_execution_cycle.md R89: where an instruction completes, pc advances by its length unless it sets pc directly; a JEQ
or JNE that does not jump leaves pc + 2. -/
def Obligations.PcAdvancesByTheLength : Prop :=
  ∀ (i : Instr) (s t : State), s.status = .running → exec i s = .next t → t.status ≠ .faulted →
    (setsPc i = false → t.pc = s.pc + i.length) ∧
    (∀ a, i = .jeq a → s.fl.getLsbD 0 = false → t.pc = s.pc + 2) ∧
    (∀ a, i = .jne a → s.fl.getLsbD 0 = true → t.pc = s.pc + 2)

/-! ## Memory -/

/-- 20_memory.md R45. -/
def Obligations.MemReadFollowsItsRule : Prop :=
  ∀ (s : State) (addr : Nat),
    (255 < addr → memRead s addr = .error (.memoryBounds s.pc addr)) ∧
    (addr ≤ 255 → ∀ v, Memory.lookup s.mem addr = some v → memRead s addr = .ok v) ∧
    (addr ≤ 255 → Memory.lookup s.mem addr = none → s.config.uninitRead = .fault →
      memRead s addr = .error (.uninitMemory s.pc addr)) ∧
    (addr ≤ 255 → Memory.lookup s.mem addr = none → s.config.uninitRead = .zero → memRead s addr = .ok 0)

/-- R46, R49: a write out of range raises MemoryBounds; in range, a later read of that address gives the value and every
other read is as before, and the memory stays canonical. -/
def Obligations.MemWriteIsReadBack : Prop :=
  ∀ (s : State) (addr : Nat) (v : Byte),
    (255 < addr → memWrite s addr v = .error (.memoryBounds s.pc addr)) ∧
    (addr ≤ 255 → ∃ t, memWrite s addr v = .ok t ∧ t = { s with mem := t.mem } ∧
      Memory.lookup t.mem addr = some v ∧ memRead t addr = .ok v ∧
      (∀ a, a ≠ addr → memRead t a = memRead s a) ∧ (Memory.wf s.mem = true → Memory.wf t.mem = true))

/-! ## Whole-machine rules -/

/-- 10_state.md R28: a step ends HALTED exactly when the opcode byte at pc is HLT's. -/
def Obligations.OnlyHltHaltsTheEngine : Prop :=
  ∀ s t : State, step s = .next t →
    (t.status = .halted ↔ CellReadable s s.pc ∧ cellValue s s.pc = 0x01)

/-- R31, R32: a step never takes back an emitted value and never changes the configuration. -/
def Obligations.OutputOnlyGrowsAndConfigurationIsFixed : Prop :=
  ∀ s t : State, step s = .next t → (t.out = s.out ∨ ∃ v, t.out = s.out ++ [v]) ∧ t.config = s.config

/-- R33, R35: what stands in a register that nothing has written is never observed, so the model's reset values for R0..R6
(assumption log 2) show nowhere else: a step commutes with forgetting them. -/
def Obligations.UnwrittenRegistersAreNeverObserved : Prop :=
  ∀ s : State,
    (∀ t, step s = .next t → step (forgetUnwritten s) = .next (forgetUnwritten t)) ∧
    (∀ f, step s = .fault f → step (forgetUnwritten s) = .fault f)

/-- 00_scope.md R7, R33: a step that raises no fault under its UNINIT_READ does the same under UNINIT_READ = Zero. -/
def Obligations.UninitFaultRefinesUninitZero : Prop :=
  ∀ s t : State, step s = .next t → t.status ≠ .faulted → step (withUninitZero s) = .next (withUninitZero t)

/-- 40_execution_cycle.md R88: a run of m + n steps is a run of n steps after a run of m, and a run stays in a terminal
state. -/
def Obligations.RunsComposeAndEndInTerminalStates : Prop :=
  (∀ (m n : Nat) (s : State), run (m + n) s = run n (run m s)) ∧
  (∀ (n : Nat) (s : State), s.status ≠ .running → run n s = s)

/-- R88, 43_branch.md R140: a JMP to its own address runs forever: after any number of steps the engine is RUNNING at the
same pc. -/
def Obligations.JumpToItselfRunsForever : Prop :=
  ∀ (s : State) (a : Reg), s.status = .running → Memory.lookup s.mem s.pc = some 0x54 → s.pc + 1 ≤ 255 →
    Memory.lookup s.mem (s.pc + 1) = some (regByte a) → Readable s a → (regValue s a).toNat = s.pc →
    ∀ n, (run n s).status = .running ∧ (run n s).pc = s.pc

/-- 60_exceptions.md R170, R179: the outcome of a well-formed state, the code of each of the eight faults, and the host's
exit code. -/
def Obligations.OutcomeReportsHaltedOrTheRecord : Prop :=
  ∀ s : State, MachineInv s →
    (s.status = .running ↔ outcome s = none) ∧
    (s.status = .halted ↔ outcome s = some .halted) ∧
    (∀ f, outcome s = some (.faulted f) ↔ s.fault = some f) ∧
    (∀ op p, (FaultRecord.decodeError op p).code = 1) ∧
    (∀ p, (FaultRecord.divisionByZero p).code = 2) ∧
    (∀ p addr, (FaultRecord.memoryBounds p addr).code = 3) ∧
    (∀ p v, (FaultRecord.registerBounds p v).code = 4) ∧
    (∀ p sp, (FaultRecord.stackBounds p sp).code = 5) ∧
    (∀ p v, (FaultRecord.returnAddressRange p v).code = 6) ∧
    (∀ p r, (FaultRecord.uninitRegister p r).code = 7) ∧
    (∀ p addr, (FaultRecord.uninitMemory p addr).code = 8) ∧
    (∀ e o, outcome s = some o → e ≠ 0 → (exitCode e o = 0 ↔ s.status = .halted))

/-- 30_encoding.md R70: the text of an instruction with registers in range reads back as it, and assembles to its bytes. -/
def Obligations.AssemblyTextReadsBack : Prop :=
  ∀ i : Instr, i.regsInRange = true → parseAsm (printAsm i) = some i ∧ assemble (printAsm i) = some (encode i)
end

