-- ==== Sys2Proof/Laws/Decode.lean ====
section
/-! SUPPORT. The dispatcher's answer for each opcode byte of 30_encoding.md R63. -/

namespace Sys2Proof

@[simp] theorem dispatch_hlt (c : Config) : dispatch c 0x01 = some (.n .hlt) := by rcases c with ⟨_ | _, _⟩ <;> rfl
@[simp] theorem dispatch_ldi (c : Config) : dispatch c 0x82 = some (.ri .ldi) := by rcases c with ⟨_ | _, _⟩ <;> rfl
@[simp] theorem dispatch_prn (c : Config) : dispatch c 0x47 = some (.r .prn) := by rcases c with ⟨_ | _, _⟩ <;> rfl
@[simp] theorem dispatch_mul (c : Config) : dispatch c 0xA2 = some (.rr .mul) := by rcases c with ⟨_ | _, _⟩ <;> rfl
@[simp] theorem dispatch_add (c : Config) : dispatch c 0xA0 = some (.rr .add) := by rcases c with ⟨_ | _, _⟩ <;> rfl
@[simp] theorem dispatch_mod (c : Config) : dispatch c 0xA4 = some (.rr .mod) := by rcases c with ⟨_ | _, _⟩ <;> rfl
@[simp] theorem dispatch_cmp (c : Config) : dispatch c 0xA7 = some (.rr .cmp) := by rcases c with ⟨_ | _, _⟩ <;> rfl
@[simp] theorem dispatch_and (c : Config) : dispatch c 0xA8 = some (.rr .and) := by rcases c with ⟨_ | _, _⟩ <;> rfl
@[simp] theorem dispatch_or (c : Config) : dispatch c 0xAA = some (.rr .or) := by rcases c with ⟨_ | _, _⟩ <;> rfl
@[simp] theorem dispatch_xor (c : Config) : dispatch c 0xAB = some (.rr .xor) := by rcases c with ⟨_ | _, _⟩ <;> rfl
@[simp] theorem dispatch_not (c : Config) : dispatch c 0x69 = some (.r .not) := by rcases c with ⟨_ | _, _⟩ <;> rfl
@[simp] theorem dispatch_jmp (c : Config) : dispatch c 0x54 = some (.r .jmp) := by rcases c with ⟨_ | _, _⟩ <;> rfl
@[simp] theorem dispatch_jeq (c : Config) : dispatch c 0x55 = some (.r .jeq) := by rcases c with ⟨_ | _, _⟩ <;> rfl
@[simp] theorem dispatch_jne (c : Config) : dispatch c 0x56 = some (.r .jne) := by rcases c with ⟨_ | _, _⟩ <;> rfl
@[simp] theorem dispatch_push (c : Config) : dispatch c 0x45 = some (.r .push) := by rcases c with ⟨_ | _, _⟩ <;> rfl
@[simp] theorem dispatch_pop (c : Config) : dispatch c 0x46 = some (.r .pop) := by rcases c with ⟨_ | _, _⟩ <;> rfl
@[simp] theorem dispatch_call (c : Config) : dispatch c 0x50 = some (.r .call) := by rcases c with ⟨_ | _, _⟩ <;> rfl
@[simp] theorem dispatch_ret (c : Config) : dispatch c 0x11 = some (.n .ret) := by rcases c with ⟨_ | _, _⟩ <;> rfl

theorem dispatch_shl {c : Config} (h : c.shiftsEnabled = true) : dispatch c 0xAC = some (.rr .shl) := by
  rcases c with ⟨_ | _, _⟩
  · simp at h
  · rfl

theorem dispatch_shr {c : Config} (h : c.shiftsEnabled = true) : dispatch c 0xAD = some (.rr .shr) := by
  rcases c with ⟨_ | _, _⟩
  · simp at h
  · rfl

/-- An entry of the table under a byte is one of the table's rows. -/
theorem dispatch_mem {c : Config} {op : Byte} {sh : Shape} (h : dispatch c op = some sh) :
    (op, sh) ∈ dispatchTable c := by
  unfold dispatch at h
  rw [Option.map_eq_some_iff] at h
  obtain ⟨row, hf, rfl⟩ := h
  have h1 := List.mem_of_find?_eq_some hf
  have h2 := List.find?_some hf
  have h3 : row.1 = op := by simpa using h2
  subst h3
  exact h1

/-- What the instructions of a table entry look like: opcode byte first, then the operand bytes of its format. -/
def ShapeOf (c : Config) (op : Byte) : Shape → Prop
  | .n i => encode i = [op] ∧ i.length = 1 ∧ i.present c = true
  | .r f => ∀ a, encode (f a) = [op, a] ∧ (f a).length = 2 ∧ (f a).present c = true
  | .rr f => ∀ a b, encode (f a b) = [op, a, b] ∧ (f a b).length = 3 ∧ (f a b).present c = true
  | .ri f => ∀ a b, encode (f a b) = [op, a, b] ∧ (f a b).length = 3 ∧ (f a b).present c = true

/-- Every entry the dispatcher answers has its shape. -/
theorem dispatch_shape {c : Config} {op : Byte} {sh : Shape} (h : dispatch c op = some sh) : ShapeOf c op sh := by
  have key : ∀ row ∈ dispatchTable c, ShapeOf c row.1 row.2 := by
    rcases c with ⟨_ | _, _⟩ <;>
      simp [dispatchTable, coreTable, shiftTable, ShapeOf, encode, Instr.length, Instr.present]
  exact key _ (dispatch_mem h)

/-- How a table entry makes an instruction from its operand bytes. -/
def Shape.Makes (i : Instr) : Shape → Prop
  | .n j => j = i ∧ encode i = [i.opcode]
  | .r f => ∃ a, f a = i ∧ encode i = [i.opcode, a]
  | .rr f => ∃ a b, f a b = i ∧ encode i = [i.opcode, a, b]
  | .ri f => ∃ a b, f a b = i ∧ encode i = [i.opcode, a, b]

/-- Every instruction of the configuration is made by the entry under its opcode byte. -/
theorem dispatch_present {c : Config} {i : Instr} (h : i.present c = true) :
    ∃ sh, dispatch c i.opcode = some sh ∧ sh.Makes i := by
  rcases c with ⟨b, u⟩
  cases i
  case shl => cases h; exact ⟨_, rfl, _, _, rfl, rfl⟩
  case shr => cases h; exact ⟨_, rfl, _, _, rfl, rfl⟩
  all_goals
    cases b <;> first
      | exact ⟨_, rfl, rfl, rfl⟩
      | exact ⟨_, rfl, _, rfl, rfl⟩
      | exact ⟨_, rfl, _, _, rfl, rfl⟩

end Sys2Proof
end

