-- ==== Sys2Proof/Laws/Mem.lean ====
section
/-! SUPPORT. The laws of memory: a read after a write, and the canonical form. -/

namespace Sys2Proof.Machine

@[simp] theorem Memory.lookup_nil (a : Nat) : Memory.lookup [] a = none := rfl

@[simp] theorem Memory.lookup_cons (k a : Nat) (v : Byte) (m : Memory) :
    Memory.lookup ((k, v) :: m) a = if k = a then some v else Memory.lookup m a := rfl

/-- A read after a write: the written cell gives the value, every other cell what it gave before. -/
theorem Memory.lookup_write (m : Memory) (a b : Nat) (v : Byte) :
    Memory.lookup (Memory.write m a v) b = if a = b then some v else Memory.lookup m b := by
  induction m with
  | nil => simp [Memory.write]
  | cons c m ih =>
    obtain ⟨k, w⟩ := c
    unfold Memory.write
    split
    · simp
    · split
      · simp; split <;> simp_all
      · simp [ih]; split <;> simp_all

@[simp] theorem Memory.lookup_write_same (m : Memory) (a : Nat) (v : Byte) :
    Memory.lookup (Memory.write m a v) a = some v := by simp [Memory.lookup_write]

theorem Memory.lookup_write_other (m : Memory) {a b : Nat} (h : a ≠ b) (v : Byte) :
    Memory.lookup (Memory.write m a v) b = Memory.lookup m b := by simp [Memory.lookup_write, h]

theorem Memory.wfFrom_cons (lo k : Nat) (v : Byte) (m : Memory) :
    Memory.wfFrom lo ((k, v) :: m) = true ↔ lo ≤ k ∧ k < 256 ∧ Memory.wfFrom (k + 1) m = true := by
  simp [Memory.wfFrom, Memory.unlisted, and_assoc]

/-- A write keeps the canonical form from any address at or below the written one. -/
theorem Memory.wfFrom_write (m : Memory) (lo a : Nat) (v : Byte) (hlo : lo ≤ a) (ha : a < 256)
    (h : Memory.wfFrom lo m = true) : Memory.wfFrom lo (Memory.write m a v) = true := by
  induction m generalizing lo with
  | nil => simp [Memory.write, Memory.wfFrom_cons, hlo, ha]; rfl
  | cons c m ih =>
    obtain ⟨k, w⟩ := c
    rw [Memory.wfFrom_cons] at h
    unfold Memory.write
    split
    · simp only [Memory.wfFrom_cons]; exact ⟨hlo, ha, by omega, h.2⟩
    · split
      · rename_i e; subst e; simp only [Memory.wfFrom_cons]; exact h
      · simp only [Memory.wfFrom_cons]; exact ⟨h.1, h.2.1, ih _ (by omega) h.2.2⟩

/-- A write at an existing address keeps the canonical form. -/
theorem Memory.wf_write (m : Memory) (a : Nat) (v : Byte) (ha : a < 256) (h : Memory.wf m = true) :
    Memory.wf (Memory.write m a v) = true := Memory.wfFrom_write m 0 a v (Nat.zero_le _) ha h

@[simp] theorem Memory.wf_nil : Memory.wf [] = true := rfl

/-- No cell outside 0..255 is written in a canonical memory. -/
theorem Memory.lookup_outside {m : Memory} {lo : Nat} (h : Memory.wfFrom lo m = true) {a : Nat} (ha : 255 < a) :
    Memory.lookup m a = none := by
  induction m generalizing lo with
  | nil => rfl
  | cons c m ih =>
    obtain ⟨k, w⟩ := c
    rw [Memory.wfFrom_cons] at h
    have : k ≠ a := by omega
    simp [this, ih h.2.2]

end Sys2Proof.Machine
end

