-- ==== Sys2Proof/Laws/State.lean ====
section
/-! SUPPORT. One lemma for each field of State under each update of Machine/Ops.lean, true by rfl; and what a register
read gives after a register write. -/

namespace Sys2Proof.Machine

/-! `State.setPc`. -/

@[simp] theorem State.setPc_mem (s : State) (v : Nat) : (s.setPc v).mem = s.mem := rfl
@[simp] theorem State.setPc_x (s : State) (v : Nat) : (s.setPc v).x = s.x := rfl
@[simp] theorem State.setPc_xWritten (s : State) (v : Nat) : (s.setPc v).xWritten = s.xWritten := rfl
@[simp] theorem State.setPc_pc (s : State) (v : Nat) : (s.setPc v).pc = v := rfl
@[simp] theorem State.setPc_fl (s : State) (v : Nat) : (s.setPc v).fl = s.fl := rfl
@[simp] theorem State.setPc_ir (s : State) (v : Nat) : (s.setPc v).ir = s.ir := rfl
@[simp] theorem State.setPc_status (s : State) (v : Nat) : (s.setPc v).status = s.status := rfl
@[simp] theorem State.setPc_fault (s : State) (v : Nat) : (s.setPc v).fault = s.fault := rfl
@[simp] theorem State.setPc_out (s : State) (v : Nat) : (s.setPc v).out = s.out := rfl
@[simp] theorem State.setPc_config (s : State) (v : Nat) : (s.setPc v).config = s.config := rfl

/-! `State.setFl`. -/

@[simp] theorem State.setFl_mem (s : State) (v : Byte) : (s.setFl v).mem = s.mem := rfl
@[simp] theorem State.setFl_x (s : State) (v : Byte) : (s.setFl v).x = s.x := rfl
@[simp] theorem State.setFl_xWritten (s : State) (v : Byte) : (s.setFl v).xWritten = s.xWritten := rfl
@[simp] theorem State.setFl_pc (s : State) (v : Byte) : (s.setFl v).pc = s.pc := rfl
@[simp] theorem State.setFl_fl (s : State) (v : Byte) : (s.setFl v).fl = v := rfl
@[simp] theorem State.setFl_ir (s : State) (v : Byte) : (s.setFl v).ir = s.ir := rfl
@[simp] theorem State.setFl_status (s : State) (v : Byte) : (s.setFl v).status = s.status := rfl
@[simp] theorem State.setFl_fault (s : State) (v : Byte) : (s.setFl v).fault = s.fault := rfl
@[simp] theorem State.setFl_out (s : State) (v : Byte) : (s.setFl v).out = s.out := rfl
@[simp] theorem State.setFl_config (s : State) (v : Byte) : (s.setFl v).config = s.config := rfl

/-! `State.setIr`. -/

@[simp] theorem State.setIr_mem (s : State) (v : Byte) : (s.setIr v).mem = s.mem := rfl
@[simp] theorem State.setIr_x (s : State) (v : Byte) : (s.setIr v).x = s.x := rfl
@[simp] theorem State.setIr_xWritten (s : State) (v : Byte) : (s.setIr v).xWritten = s.xWritten := rfl
@[simp] theorem State.setIr_pc (s : State) (v : Byte) : (s.setIr v).pc = s.pc := rfl
@[simp] theorem State.setIr_fl (s : State) (v : Byte) : (s.setIr v).fl = s.fl := rfl
@[simp] theorem State.setIr_ir (s : State) (v : Byte) : (s.setIr v).ir = v := rfl
@[simp] theorem State.setIr_status (s : State) (v : Byte) : (s.setIr v).status = s.status := rfl
@[simp] theorem State.setIr_fault (s : State) (v : Byte) : (s.setIr v).fault = s.fault := rfl
@[simp] theorem State.setIr_out (s : State) (v : Byte) : (s.setIr v).out = s.out := rfl
@[simp] theorem State.setIr_config (s : State) (v : Byte) : (s.setIr v).config = s.config := rfl

/-! `State.setReg`. -/

@[simp] theorem State.setReg_mem (s : State) (r : Reg) (v : Byte) : (s.setReg r v).mem = s.mem := rfl
@[simp] theorem State.setReg_x (s : State) (r : Reg) (v : Byte) : (s.setReg r v).x = s.x.set r v := rfl
@[simp] theorem State.setReg_xWritten (s : State) (r : Reg) (v : Byte) : (s.setReg r v).xWritten = s.xWritten.set r true := rfl
@[simp] theorem State.setReg_pc (s : State) (r : Reg) (v : Byte) : (s.setReg r v).pc = s.pc := rfl
@[simp] theorem State.setReg_fl (s : State) (r : Reg) (v : Byte) : (s.setReg r v).fl = s.fl := rfl
@[simp] theorem State.setReg_ir (s : State) (r : Reg) (v : Byte) : (s.setReg r v).ir = s.ir := rfl
@[simp] theorem State.setReg_status (s : State) (r : Reg) (v : Byte) : (s.setReg r v).status = s.status := rfl
@[simp] theorem State.setReg_fault (s : State) (r : Reg) (v : Byte) : (s.setReg r v).fault = s.fault := rfl
@[simp] theorem State.setReg_out (s : State) (r : Reg) (v : Byte) : (s.setReg r v).out = s.out := rfl
@[simp] theorem State.setReg_config (s : State) (r : Reg) (v : Byte) : (s.setReg r v).config = s.config := rfl

/-! `State.setMem`. -/

@[simp] theorem State.setMem_mem (s : State) (m : Memory) : (s.setMem m).mem = m := rfl
@[simp] theorem State.setMem_x (s : State) (m : Memory) : (s.setMem m).x = s.x := rfl
@[simp] theorem State.setMem_xWritten (s : State) (m : Memory) : (s.setMem m).xWritten = s.xWritten := rfl
@[simp] theorem State.setMem_pc (s : State) (m : Memory) : (s.setMem m).pc = s.pc := rfl
@[simp] theorem State.setMem_fl (s : State) (m : Memory) : (s.setMem m).fl = s.fl := rfl
@[simp] theorem State.setMem_ir (s : State) (m : Memory) : (s.setMem m).ir = s.ir := rfl
@[simp] theorem State.setMem_status (s : State) (m : Memory) : (s.setMem m).status = s.status := rfl
@[simp] theorem State.setMem_fault (s : State) (m : Memory) : (s.setMem m).fault = s.fault := rfl
@[simp] theorem State.setMem_out (s : State) (m : Memory) : (s.setMem m).out = s.out := rfl
@[simp] theorem State.setMem_config (s : State) (m : Memory) : (s.setMem m).config = s.config := rfl

/-! `State.emit`. -/

@[simp] theorem State.emit_mem (s : State) (v : Byte) : (s.emit v).mem = s.mem := rfl
@[simp] theorem State.emit_x (s : State) (v : Byte) : (s.emit v).x = s.x := rfl
@[simp] theorem State.emit_xWritten (s : State) (v : Byte) : (s.emit v).xWritten = s.xWritten := rfl
@[simp] theorem State.emit_pc (s : State) (v : Byte) : (s.emit v).pc = s.pc := rfl
@[simp] theorem State.emit_fl (s : State) (v : Byte) : (s.emit v).fl = s.fl := rfl
@[simp] theorem State.emit_ir (s : State) (v : Byte) : (s.emit v).ir = s.ir := rfl
@[simp] theorem State.emit_status (s : State) (v : Byte) : (s.emit v).status = s.status := rfl
@[simp] theorem State.emit_fault (s : State) (v : Byte) : (s.emit v).fault = s.fault := rfl
@[simp] theorem State.emit_out (s : State) (v : Byte) : (s.emit v).out = s.out ++ [v] := rfl
@[simp] theorem State.emit_config (s : State) (v : Byte) : (s.emit v).config = s.config := rfl

/-! `State.halt`. -/

@[simp] theorem State.halt_mem (s : State) : (s.halt).mem = s.mem := rfl
@[simp] theorem State.halt_x (s : State) : (s.halt).x = s.x := rfl
@[simp] theorem State.halt_xWritten (s : State) : (s.halt).xWritten = s.xWritten := rfl
@[simp] theorem State.halt_pc (s : State) : (s.halt).pc = s.pc := rfl
@[simp] theorem State.halt_fl (s : State) : (s.halt).fl = s.fl := rfl
@[simp] theorem State.halt_ir (s : State) : (s.halt).ir = s.ir := rfl
@[simp] theorem State.halt_status (s : State) : (s.halt).status = .halted := rfl
@[simp] theorem State.halt_fault (s : State) : (s.halt).fault = s.fault := rfl
@[simp] theorem State.halt_out (s : State) : (s.halt).out = s.out := rfl
@[simp] theorem State.halt_config (s : State) : (s.halt).config = s.config := rfl

/-! `takeFault`. -/

@[simp] theorem takeFault_mem (f : FaultRecord) (s : State) : (takeFault f s).mem = s.mem := rfl
@[simp] theorem takeFault_x (f : FaultRecord) (s : State) : (takeFault f s).x = s.x := rfl
@[simp] theorem takeFault_xWritten (f : FaultRecord) (s : State) : (takeFault f s).xWritten = s.xWritten := rfl
@[simp] theorem takeFault_pc (f : FaultRecord) (s : State) : (takeFault f s).pc = s.pc := rfl
@[simp] theorem takeFault_fl (f : FaultRecord) (s : State) : (takeFault f s).fl = s.fl := rfl
@[simp] theorem takeFault_ir (f : FaultRecord) (s : State) : (takeFault f s).ir = s.ir := rfl
@[simp] theorem takeFault_status (f : FaultRecord) (s : State) : (takeFault f s).status = .faulted := rfl
@[simp] theorem takeFault_fault (f : FaultRecord) (s : State) : (takeFault f s).fault = some f := rfl
@[simp] theorem takeFault_out (f : FaultRecord) (s : State) : (takeFault f s).out = s.out := rfl
@[simp] theorem takeFault_config (f : FaultRecord) (s : State) : (takeFault f s).config = s.config := rfl

/-! Registers after a write. -/

@[simp] theorem regValue_setReg_same (s : State) (r : Reg) (v : Byte) : regValue (s.setReg r v) r = v := by
  simp [regValue]

@[simp] theorem regValue_setReg_other (s : State) {r q : Reg} (h : r ≠ q) (v : Byte) :
    regValue (s.setReg r v) q = regValue s q := by
  have hv : (r : Nat) ≠ (q : Nat) := fun e => h (Fin.ext e)
  simp [regValue, Vector.getElem_set_ne, hv]

theorem readable_setReg (s : State) (r q : Reg) (v : Byte) :
    Readable (s.setReg r v) q ↔ q = r ∨ Readable s q := by
  by_cases h : q = r
  · subst h; simp [Readable]
  · have hv : (r : Nat) ≠ (q : Nat) := fun e => h (Fin.ext e.symm)
    simp [Readable, Vector.getElem_set_ne, hv, h]

end Sys2Proof.Machine
end

