-- ==== Sys2Proof/Laws/Ops.lean ====
section
/-! SUPPORT. One lemma for each shared operation of Machine/Ops.lean, Operands.lean and Branch.lean that says all it can
answer, and the rules that peel a meaning apart. -/

namespace Sys2Proof.Machine

/-! Peeling `Exec` computations. -/

@[simp] theorem Exec.ok_bind {α β : Type} (a : α) (k : α → Exec β) : ((Except.ok a : Exec α) >>= k) = k a := rfl

@[simp] theorem Exec.error_bind {α β : Type} (f : FaultRecord) (k : α → Exec β) :
    ((Except.error f : Exec α) >>= k) = Except.error f := rfl

@[simp] theorem Exec.pure_eq {α : Type} (a : α) : (pure a : Exec α) = Except.ok a := rfl

theorem Exec.bind_eq_ok {α β : Type} {r : Exec α} {k : α → Exec β} {b : β} :
    (r >>= k) = Except.ok b ↔ ∃ a, r = Except.ok a ∧ k a = Except.ok b := by
  cases r <;> simp

theorem Exec.bind_eq_error {α β : Type} {r : Exec α} {k : α → Exec β} {f : FaultRecord} :
    (r >>= k) = Except.error f ↔ r = Except.error f ∨ ∃ a, r = Except.ok a ∧ k a = Except.error f := by
  cases r <;> simp

@[simp] theorem commit_ok (s t : State) : commit s (.ok t) = .next t := rfl

@[simp] theorem commit_error (s : State) (f : FaultRecord) : commit s (.error f) = .next (takeFault f s) := rfl

/-- `commit` always answers a next state. -/
theorem commit_next (s : State) (r : Exec State) :
    ∃ t, commit s r = .next t ∧ (r = .ok t ∨ ∃ f, r = .error f ∧ t = takeFault f s) := by
  cases r <;> simp

@[simp] theorem require_true (f : FaultRecord) : require true f = .ok () := rfl

@[simp] theorem require_false (f : FaultRecord) : require false f = .error f := rfl

/-! Operands. -/

theorem regByte_toNat (r : Reg) : (regByte r).toNat = r.val := by
  have := r.isLt
  simp [regByte]; omega

/-- A register operand in range is its register. -/
@[simp] theorem regOperand_regByte (s : State) (r : Reg) : regOperand s (regByte r) = .ok r := by
  simp [regOperand, regByte_toNat]

/-- A register operand out of range raises RegisterBounds. -/
theorem regOperand_outside (s : State) {v : Byte} (h : 7 < v.toNat) :
    regOperand s v = .error (.registerBounds s.pc v) := by
  have : ¬ v.toNat < 8 := by omega
  simp [regOperand, this]

/-- A register operand is in range or out of range. -/
theorem regOperand_cases (s : State) (v : Byte) :
    (∃ r : Reg, v = regByte r ∧ regOperand s v = .ok r) ∨
      (7 < v.toNat ∧ regOperand s v = .error (.registerBounds s.pc v)) := by
  by_cases h : v.toNat < 8
  · left
    refine ⟨⟨v.toNat, h⟩, ?_, by simp [regOperand, h]⟩
    apply BitVec.eq_of_toNat_eq
    rw [regByte_toNat]
  · exact .inr ⟨by omega, regOperand_outside s (by omega)⟩

/-! Reads. -/

theorem readReg_readable {s : State} {r : Reg} (h : Readable s r) : readReg s r = .ok (regValue s r) := by
  unfold readReg regValue
  split
  · rfl
  · have hz : s.config.uninitRead = .zero := by simp_all [Readable]
    simp [hz]

theorem readReg_unreadable {s : State} {r : Reg} (h : ¬ Readable s r) :
    readReg s r = .error (.uninitRegister s.pc r) := by
  unfold readReg
  cases hu : s.config.uninitRead <;> simp_all [Readable]

/-- All a register read can answer. -/
theorem readReg_cases (s : State) (r : Reg) :
    (Readable s r ∧ readReg s r = .ok (regValue s r)) ∨
      (¬ Readable s r ∧ readReg s r = .error (.uninitRegister s.pc r)) := by
  by_cases h : Readable s r
  · exact .inl ⟨h, readReg_readable h⟩
  · exact .inr ⟨h, readReg_unreadable h⟩

theorem memRead_outside (s : State) {a : Nat} (h : 255 < a) : memRead s a = .error (.memoryBounds s.pc a) := by
  simp [memRead, h]

theorem memRead_readable {s : State} {a : Nat} (h : CellReadable s a) : memRead s a = .ok (cellValue s a) := by
  obtain ⟨ha, hr⟩ := h
  have : ¬ 255 < a := by omega
  unfold memRead cellValue
  cases hl : Memory.lookup s.mem a <;> simp_all

theorem memRead_unreadable {s : State} {a : Nat} (ha : a ≤ 255) (h : ¬ CellReadable s a) :
    memRead s a = .error (.uninitMemory s.pc a) := by
  have : ¬ 255 < a := by omega
  unfold memRead
  cases hl : Memory.lookup s.mem a <;> cases hu : s.config.uninitRead <;> simp_all [CellReadable]

/-- All a memory read can answer. -/
theorem memRead_cases (s : State) (a : Nat) :
    (255 < a ∧ memRead s a = .error (.memoryBounds s.pc a)) ∨
      (CellReadable s a ∧ memRead s a = .ok (cellValue s a)) ∨
      (a ≤ 255 ∧ ¬ CellReadable s a ∧ memRead s a = .error (.uninitMemory s.pc a)) := by
  by_cases ha : 255 < a
  · exact .inl ⟨ha, memRead_outside s ha⟩
  · by_cases h : CellReadable s a
    · exact .inr (.inl ⟨h, memRead_readable h⟩)
    · exact .inr (.inr ⟨by omega, h, memRead_unreadable (by omega) h⟩)

/-- A write at an existing address. -/
theorem memWrite_ok (s : State) {a : Nat} (h : a ≤ 255) (v : Byte) :
    memWrite s a v = .ok (s.setMem (Memory.write s.mem a v)) := by
  have : ¬ 255 < a := by omega
  simp [memWrite, this]

theorem memWrite_outside (s : State) {a : Nat} (h : 255 < a) (v : Byte) :
    memWrite s a v = .error (.memoryBounds s.pc a) := by
  simp [memWrite, h]

/-! The stack pointer. -/

/-- The decrement of PUSH and CALL. -/
theorem decSp_eq {s : State} (h : Readable s SP) :
    decSp s = if 1 ≤ (regValue s SP).toNat then .ok (s.setReg SP (BitVec.ofNat 8 ((regValue s SP).toNat - 1)))
      else .error (.stackBounds s.pc (regValue s SP)) := by
  simp only [decSp, readReg_readable h, Exec.ok_bind]
  by_cases h1 : 1 ≤ (regValue s SP).toNat
  · rw [if_pos h1, decide_eq_true h1]; rfl
  · rw [if_neg h1, decide_eq_false h1]; rfl

/-- The increment of POP and RET. -/
theorem incSp_eq {s : State} (h : Readable s SP) :
    incSp s = if (regValue s SP).toNat + 1 ≤ 255 then .ok (s.setReg SP (BitVec.ofNat 8 ((regValue s SP).toNat + 1)))
      else .error (.stackBounds s.pc (regValue s SP)) := by
  simp only [incSp, readReg_readable h, Exec.ok_bind]
  by_cases h1 : (regValue s SP).toNat + 1 ≤ 255
  · rw [if_pos h1, decide_eq_true h1]; rfl
  · rw [if_neg h1, decide_eq_false h1]; rfl

/-- The byte SP addresses. -/
theorem readTop_eq {s : State} (h : Readable s SP) : readTop s = memRead s (regValue s SP).toNat := by
  simp [readTop, readReg_readable h]

/-- A write to the byte SP addresses never leaves memory (20_memory.md R46). -/
theorem writeTop_eq {s : State} (h : Readable s SP) (v : Byte) :
    writeTop s v = .ok (s.setMem (Memory.write s.mem (regValue s SP).toNat v)) := by
  have := (regValue s SP).isLt
  simp [writeTop, readReg_readable h, memWrite_ok s (show (regValue s SP).toNat ≤ 255 by omega)]

/-- SP is readable after it has been adjusted. -/
theorem readable_sp_setReg (s : State) (v : Byte) : Readable (s.setReg SP v) SP := by simp [Readable]

/-! What the operations answer when they complete. -/

/-- The 8-bit value below a non-zero one. -/
theorem byte_pred (v : Byte) (h : 1 ≤ v.toNat) : BitVec.ofNat 8 (v.toNat - 1) = v - 1 := by
  apply BitVec.eq_of_toNat_eq
  have := v.isLt
  simp [BitVec.toNat_sub]; omega

theorem byte_pred_toNat (v : Byte) (h : 1 ≤ v.toNat) : (v - 1).toNat = v.toNat - 1 := by
  have := v.isLt
  simp [BitVec.toNat_sub]; omega

/-- The 8-bit value above one (255 wraps). -/
theorem byte_succ (v : Byte) : BitVec.ofNat 8 (v.toNat + 1) = v + 1 := by
  apply BitVec.eq_of_toNat_eq
  simp

theorem regOperand_eq_ok {s : State} {v : Byte} {r : Reg} (h : regOperand s v = .ok r) : v = regByte r := by
  rcases regOperand_cases s v with ⟨q, e, h'⟩ | ⟨_, h'⟩ <;> rw [h'] at h <;> cases h
  exact e

theorem memRead_eq_ok {s : State} {a : Nat} {v : Byte} (h : memRead s a = .ok v) :
    CellReadable s a ∧ v = cellValue s a := by
  rcases memRead_cases s a with ⟨_, e⟩ | ⟨hc, e⟩ | ⟨_, _, e⟩ <;> rw [e] at h <;> cases h
  exact ⟨hc, rfl⟩

theorem decSp_eq_ok {s t : State} (h : decSp s = .ok t) :
    1 ≤ (regValue s SP).toNat ∧ t = s.setReg SP (regValue s SP - 1) := by
  rcases readReg_cases s SP with ⟨hr, _⟩ | ⟨_, e⟩
  · rw [decSp_eq hr] at h
    split at h <;> cases h
    rename_i h1
    exact ⟨h1, by rw [byte_pred _ h1]⟩
  · simp [decSp, e] at h

theorem incSp_eq_ok {s t : State} (h : incSp s = .ok t) : t = s.setReg SP (regValue s SP + 1) := by
  rcases readReg_cases s SP with ⟨hr, _⟩ | ⟨_, e⟩
  · rw [incSp_eq hr] at h
    split at h <;> cases h
    rw [byte_succ]
  · simp [incSp, e] at h

theorem writeTop_eq_ok {s t : State} {v : Byte} (h : writeTop s v = .ok t) :
    t = s.setMem (Memory.write s.mem (regValue s SP).toNat v) := by
  rcases readReg_cases s SP with ⟨hr, _⟩ | ⟨_, e⟩
  · rw [writeTop_eq hr] at h
    cases h
    rfl
  · simp [writeTop, e] at h

/-- A push: the decrement of SP, then the write to the byte it addresses. -/
theorem decSp_writeTop_eq_ok {s t u : State} {v : Byte} (h : decSp s = .ok t) (hw : writeTop t v = .ok u) :
    1 ≤ (regValue s SP).toNat ∧
      u = (s.setReg SP (regValue s SP - 1)).setMem (Memory.write s.mem ((regValue s SP).toNat - 1) v) := by
  obtain ⟨h1, rfl⟩ := decSp_eq_ok h
  refine ⟨h1, ?_⟩
  rw [writeTop_eq_ok hw, regValue_setReg_same, byte_pred_toNat _ h1, State.setReg_mem]

/-! Which pc a fault records. -/

/-- Every fault the computation raises records this pc (60_exceptions.md R170). -/
def FaultsAt {α : Type} (p : Nat) (r : Exec α) : Prop := ∀ f, r = .error f → f.pc = p

theorem FaultsAt.ok {α : Type} (p : Nat) (a : α) : FaultsAt p (Except.ok a : Exec α) := fun _ h => by cases h

theorem FaultsAt.bind {α β : Type} {p : Nat} {r : Exec α} {k : α → Exec β} (hr : FaultsAt p r)
    (hk : ∀ a, r = .ok a → FaultsAt p (k a)) : FaultsAt p (r >>= k) := by
  intro f h
  rcases Exec.bind_eq_error.1 h with h | ⟨a, ha, h⟩
  · exact hr f h
  · exact hk a ha f h

theorem FaultsAt.require {p : Nat} {b : Bool} {f : FaultRecord} (hf : f.pc = p) : FaultsAt p (require b f) := by
  intro g h
  cases b <;> cases h
  exact hf

theorem FaultsAt.regOperand (s : State) (v : Byte) : FaultsAt s.pc (regOperand s v) := by
  intro f h
  rcases regOperand_cases s v with ⟨_, _, e⟩ | ⟨_, e⟩ <;> rw [e] at h <;> cases h
  rfl

theorem FaultsAt.readReg (s : State) (r : Reg) : FaultsAt s.pc (readReg s r) := by
  intro f h
  rcases readReg_cases s r with ⟨_, e⟩ | ⟨_, e⟩ <;> rw [e] at h <;> cases h
  rfl

theorem FaultsAt.memRead (s : State) (a : Nat) : FaultsAt s.pc (memRead s a) := by
  intro f h
  rcases memRead_cases s a with ⟨_, e⟩ | ⟨_, e⟩ | ⟨_, _, e⟩ <;> rw [e] at h <;> cases h <;> rfl

theorem FaultsAt.memWrite (s : State) (a : Nat) (v : Byte) : FaultsAt s.pc (memWrite s a v) := by
  intro f h
  by_cases ha : 255 < a
  · rw [memWrite_outside s ha] at h; cases h; rfl
  · rw [memWrite_ok s (by omega)] at h; cases h

theorem FaultsAt.decSp (s : State) : FaultsAt s.pc (decSp s) :=
  (FaultsAt.readReg s SP).bind fun _ _ => (FaultsAt.require rfl).bind fun _ _ => FaultsAt.ok _ _

theorem FaultsAt.incSp (s : State) : FaultsAt s.pc (incSp s) :=
  (FaultsAt.readReg s SP).bind fun _ _ => (FaultsAt.require rfl).bind fun _ _ => FaultsAt.ok _ _

theorem FaultsAt.readTop (s : State) : FaultsAt s.pc (readTop s) :=
  (FaultsAt.readReg s SP).bind fun _ _ => FaultsAt.memRead s _

theorem FaultsAt.writeTop (s : State) (v : Byte) : FaultsAt s.pc (writeTop s v) :=
  (FaultsAt.readReg s SP).bind fun _ _ => FaultsAt.memWrite s _ v

/-- All a commit can answer: the fault's state, or the working copy. -/
theorem commit_cases {s t : State} {r : Exec State} (hr : FaultsAt s.pc r) (h : commit s r = .next t) :
    (∃ f, f.pc = s.pc ∧ t = takeFault f s) ∨ r = .ok t := by
  cases r with
  | ok u => cases h; exact .inr rfl
  | error f => cases h; exact .inl ⟨f, hr f rfl, rfl⟩

/-! Stores of several bytes. -/

theorem storeBytes_wf (bs : List Byte) (m : Memory) (a : Nat) (h : Memory.wf m = true) :
    Memory.wf (storeBytes m a bs) = true := by
  induction bs generalizing m a with
  | nil => exact h
  | cons b bs ih =>
    unfold storeBytes
    apply ih
    split
    · exact Memory.wf_write m a b (by omega) h
    · exact h

end Sys2Proof.Machine
end

