-- ==== Sys2Proof/Laws/Exec.lean ====
section
/-! SUPPORT. All that one instruction can do, said once: `exec_cases`. -/

namespace Sys2Proof.Machine

/-! The ALU. -/

theorem FaultsAt.alu (p : Nat) (op : AluOp) (x y : Byte) : FaultsAt p (alu p op x y) := by
  intro f h
  cases op
  case mod =>
    simp only [Sys2Proof.Machine.alu] at h
    split at h <;> cases h
    rfl
  all_goals cases h

theorem FaultsAt.aluOperands (op : AluOp) (a b : Byte) (s : State) : FaultsAt s.pc (aluOperands op a b s) :=
  (FaultsAt.regOperand s a).bind fun _ _ => (FaultsAt.regOperand s b).bind fun _ _ =>
    (FaultsAt.readReg s _).bind fun _ _ => (FaultsAt.readReg s _).bind fun _ _ =>
      (FaultsAt.alu s.pc op _ _).bind fun _ _ => FaultsAt.ok _ _

theorem FaultsAt.aluToReg (op : AluOp) (a b : Byte) (s : State) : FaultsAt s.pc (aluToReg op a b s) :=
  (FaultsAt.aluOperands op a b s).bind fun _ _ => FaultsAt.ok _ _

/-- Both operands readable: the ALU's answer, for the first operand's register. -/
theorem aluOperands_readable {op : AluOp} {s : State} {a b : Reg} (ha : Readable s a) (hb : Readable s b) :
    aluOperands op (regByte a) (regByte b) s =
      (alu s.pc op (regValue s a) (regValue s b)) >>= fun v => Except.ok (a, v) := by
  simp [aluOperands, readReg_readable ha, readReg_readable hb]

/-- The first read faults. -/
theorem aluOperands_unreadable_fst {op : AluOp} {s : State} {a b : Reg} (ha : ¬ Readable s a) :
    aluOperands op (regByte a) (regByte b) s = .error (.uninitRegister s.pc a) := by
  simp [aluOperands, readReg_unreadable ha]

/-- The second read faults. -/
theorem aluOperands_unreadable_snd {op : AluOp} {s : State} {a b : Reg} (ha : Readable s a) (hb : ¬ Readable s b) :
    aluOperands op (regByte a) (regByte b) s = .error (.uninitRegister s.pc b) := by
  simp [aluOperands, readReg_readable ha, readReg_unreadable hb]

theorem aluOperands_eq_ok {op : AluOp} {a b : Byte} {s : State} {r : Reg × Byte} (h : aluOperands op a b s = .ok r) :
    a = regByte r.1 ∧ ∃ x y, alu s.pc op x y = .ok r.2 := by
  simp only [aluOperands, Exec.bind_eq_ok] at h
  obtain ⟨ra, h1, rb, _, va, _, vb, _, v, h5, h6⟩ := h
  cases h6
  exact ⟨regOperand_eq_ok h1, _, _, h5⟩

theorem aluToReg_eq_ok {op : AluOp} {a b : Byte} {s t : State} (h : aluToReg op a b s = .ok t) :
    ∃ r v, a = regByte r ∧ t = (s.setReg r v).setPc (s.pc + 3) := by
  simp only [aluToReg, Exec.bind_eq_ok] at h
  obtain ⟨r, h1, h2⟩ := h
  cases h2
  exact ⟨_, _, (aluOperands_eq_ok h1).1, rfl⟩

/-- FL's new value has one bit (42_alu.md R120). -/
theorem flValue_cases (x y : Byte) : flValue x y = 0x01 ∨ flValue x y = 0x02 ∨ flValue x y = 0x04 := by
  unfold flValue
  split
  · simp
  · split <;> simp

/-! Jumps. -/

theorem FaultsAt.jumpTo (s : State) (r : Reg) : FaultsAt s.pc (jumpTo s r) :=
  (FaultsAt.readReg s r).bind fun _ _ => FaultsAt.ok _ _

theorem FaultsAt.jumpIf (c : Bool) (a : Byte) (s : State) : FaultsAt s.pc (jumpIf c a s) := by
  refine (FaultsAt.regOperand s a).bind fun r _ => ?_
  cases c
  · exact FaultsAt.ok _ _
  · exact FaultsAt.jumpTo s r

theorem jumpTo_eq_ok {s t : State} {r : Reg} (h : jumpTo s r = .ok t) : ∃ v : Byte, t = s.setPc v.toNat := by
  simp only [jumpTo, Exec.bind_eq_ok] at h
  obtain ⟨v, _, h⟩ := h
  cases h
  exact ⟨v, rfl⟩

theorem jumpIf_eq_ok {c : Bool} {a : Byte} {s t : State} (h : jumpIf c a s = .ok t) :
    (c = true ∧ ∃ v : Byte, t = s.setPc v.toNat) ∨ (c = false ∧ t = s.setPc (s.pc + 2)) := by
  simp only [jumpIf, Exec.bind_eq_ok] at h
  obtain ⟨r, _, h⟩ := h
  cases c
  · cases h; exact .inr ⟨rfl, rfl⟩
  · exact .inl ⟨rfl, jumpTo_eq_ok h⟩

/-! The inversion. -/

/-- The shape of the next state of an instruction that completes: which pieces of state it writes, and where pc goes. -/
def Effect : Instr → State → State → Prop
  | .hlt, s, t => t = s.halt.setPc (s.pc + 1)
  | .prn _, s, t => ∃ v, t = (s.emit v).setPc (s.pc + 2)
  | .cmp _ _, s, t => ∃ v, (v = 0x01 ∨ v = 0x02 ∨ v = 0x04) ∧ t = (s.setFl v).setPc (s.pc + 3)
  | .not a, s, t => ∃ r v, a = regByte r ∧ t = (s.setReg r v).setPc (s.pc + 2)
  | .jmp _, s, t => ∃ v : Byte, t = s.setPc v.toNat
  | .jeq _, s, t =>
    (flagE s.fl = true ∧ ∃ v : Byte, t = s.setPc v.toNat) ∨ (flagE s.fl = false ∧ t = s.setPc (s.pc + 2))
  | .jne _, s, t =>
    (flagE s.fl = false ∧ ∃ v : Byte, t = s.setPc v.toNat) ∨ (flagE s.fl = true ∧ t = s.setPc (s.pc + 2))
  | .push _, s, t => 1 ≤ (regValue s SP).toNat ∧ ∃ v,
    t = ((s.setReg SP (regValue s SP - 1)).setMem (Memory.write s.mem ((regValue s SP).toNat - 1) v)).setPc (s.pc + 2)
  | .pop a, s, t => ∃ r v w, a = regByte r ∧ t = ((s.setReg r v).setReg SP w).setPc (s.pc + 2)
  | .call _, s, t => 1 ≤ (regValue s SP).toNat ∧ ∃ v w : Byte,
    t = ((s.setReg SP (regValue s SP - 1)).setMem (Memory.write s.mem ((regValue s SP).toNat - 1) v)).setPc w.toNat
  | .ret, s, t => ∃ v w : Byte, t = (s.setReg SP w).setPc v.toNat
  | .ldi a _, s, t => ∃ r v, a = regByte r ∧ t = (s.setReg r v).setPc (s.pc + 3)
  | .mul a _, s, t => ∃ r v, a = regByte r ∧ t = (s.setReg r v).setPc (s.pc + 3)
  | .add a _, s, t => ∃ r v, a = regByte r ∧ t = (s.setReg r v).setPc (s.pc + 3)
  | .mod a _, s, t => ∃ r v, a = regByte r ∧ t = (s.setReg r v).setPc (s.pc + 3)
  | .and a _, s, t => ∃ r v, a = regByte r ∧ t = (s.setReg r v).setPc (s.pc + 3)
  | .or a _, s, t => ∃ r v, a = regByte r ∧ t = (s.setReg r v).setPc (s.pc + 3)
  | .xor a _, s, t => ∃ r v, a = regByte r ∧ t = (s.setReg r v).setPc (s.pc + 3)
  | .shl a _, s, t => ∃ r v, a = regByte r ∧ t = (s.setReg r v).setPc (s.pc + 3)
  | .shr a _, s, t => ∃ r v, a = regByte r ∧ t = (s.setReg r v).setPc (s.pc + 3)

/-- All that an instruction can do: take a fault that records its own pc, or have its effect. -/
theorem exec_cases {i : Instr} {s t : State} (h : exec i s = .next t) :
    (∃ f, f.pc = s.pc ∧ t = takeFault f s) ∨ Effect i s t := by
  cases i with
  | hlt => cases h; exact .inr rfl
  | ldi a imm =>
    refine (commit_cases ((FaultsAt.regOperand s a).bind fun _ _ => FaultsAt.ok _ _) h).imp_right fun h => ?_
    simp only [Exec.bind_eq_ok] at h
    obtain ⟨r, h1, h2⟩ := h
    cases h2
    exact ⟨r, _, regOperand_eq_ok h1, rfl⟩
  | prn a =>
    refine (commit_cases ((FaultsAt.regOperand s a).bind fun _ _ => (FaultsAt.readReg s _).bind fun _ _ =>
      FaultsAt.ok _ _) h).imp_right fun h => ?_
    simp only [Exec.bind_eq_ok] at h
    obtain ⟨r, _, v, _, h3⟩ := h
    cases h3
    exact ⟨v, rfl⟩
  | mul a b => exact (commit_cases (FaultsAt.aluToReg .mul a b s) h).imp_right aluToReg_eq_ok
  | add a b => exact (commit_cases (FaultsAt.aluToReg .add a b s) h).imp_right aluToReg_eq_ok
  | mod a b => exact (commit_cases (FaultsAt.aluToReg .mod a b s) h).imp_right aluToReg_eq_ok
  | and a b => exact (commit_cases (FaultsAt.aluToReg .and a b s) h).imp_right aluToReg_eq_ok
  | or a b => exact (commit_cases (FaultsAt.aluToReg .or a b s) h).imp_right aluToReg_eq_ok
  | xor a b => exact (commit_cases (FaultsAt.aluToReg .xor a b s) h).imp_right aluToReg_eq_ok
  | shl a b => exact (commit_cases (FaultsAt.aluToReg .shl a b s) h).imp_right aluToReg_eq_ok
  | shr a b => exact (commit_cases (FaultsAt.aluToReg .shr a b s) h).imp_right aluToReg_eq_ok
  | cmp a b =>
    refine (commit_cases ((FaultsAt.aluOperands .cmp a b s).bind fun _ _ => FaultsAt.ok _ _) h).imp_right fun h => ?_
    simp only [Exec.bind_eq_ok] at h
    obtain ⟨p, h1, h2⟩ := h
    cases h2
    obtain ⟨_, x, y, hv⟩ := aluOperands_eq_ok h1
    refine ⟨p.2, ?_, rfl⟩
    rw [← Except.ok.inj hv]
    exact flValue_cases x y
  | not a =>
    refine (commit_cases ((FaultsAt.regOperand s a).bind fun _ _ => (FaultsAt.readReg s _).bind fun _ _ =>
      (FaultsAt.alu s.pc .not _ _).bind fun _ _ => FaultsAt.ok _ _) h).imp_right fun h => ?_
    simp only [Exec.bind_eq_ok] at h
    obtain ⟨r, h1, v, _, w, _, h4⟩ := h
    cases h4
    exact ⟨r, _, regOperand_eq_ok h1, rfl⟩
  | jmp a =>
    refine (commit_cases ((FaultsAt.regOperand s a).bind fun _ _ => FaultsAt.jumpTo s _) h).imp_right fun h => ?_
    simp only [Exec.bind_eq_ok] at h
    obtain ⟨r, _, h2⟩ := h
    exact jumpTo_eq_ok h2
  | jeq a => exact (commit_cases (FaultsAt.jumpIf _ a s) h).imp_right jumpIf_eq_ok
  | jne a =>
    refine (commit_cases (FaultsAt.jumpIf _ a s) h).imp_right fun h => ?_
    simpa [Effect] using jumpIf_eq_ok h
  | push a =>
    have hf : FaultsAt s.pc (do
        let ra ← regOperand s a
        let t ← decSp s
        let v ← readReg t ra
        let t ← writeTop t v
        return t.setPc (s.pc + 2)) := by
      refine (FaultsAt.regOperand s a).bind fun r _ => (FaultsAt.decSp s).bind fun u hu => ?_
      obtain ⟨_, rfl⟩ := decSp_eq_ok hu
      exact (FaultsAt.readReg _ r).bind fun _ _ => (FaultsAt.writeTop _ _).bind fun _ _ => FaultsAt.ok _ _
    refine (commit_cases hf h).imp_right fun h => ?_
    simp only [Exec.bind_eq_ok] at h
    obtain ⟨r, _, u, h2, v, _, w, h4, h5⟩ := h
    cases h5
    obtain ⟨h6, rfl⟩ := decSp_writeTop_eq_ok h2 h4
    exact ⟨h6, v, rfl⟩
  | pop a =>
    refine (commit_cases ((FaultsAt.regOperand s a).bind fun r _ => (FaultsAt.readTop s).bind fun v _ =>
      (FaultsAt.incSp (s.setReg r v)).bind fun _ _ => FaultsAt.ok _ _) h).imp_right fun h => ?_
    simp only [Exec.bind_eq_ok] at h
    obtain ⟨r, h1, v, _, u, h3, h4⟩ := h
    cases h4
    rw [incSp_eq_ok h3]
    exact ⟨r, v, _, regOperand_eq_ok h1, rfl⟩
  | call a =>
    have hf : FaultsAt s.pc (do
        let ra ← regOperand s a
        let r := s.pc + 2
        let t ← decSp s
        require (decide (r ≤ 255)) (.returnAddressRange s.pc r)
        let t ← writeTop t (BitVec.ofNat 8 r)
        let v ← readReg t ra
        return t.setPc v.toNat) := by
      refine (FaultsAt.regOperand s a).bind fun r _ => (FaultsAt.decSp s).bind fun u hu => ?_
      obtain ⟨_, rfl⟩ := decSp_eq_ok hu
      refine (FaultsAt.require rfl).bind fun _ _ => (FaultsAt.writeTop _ _).bind fun w hw => ?_
      rw [writeTop_eq_ok hw]
      exact (FaultsAt.readReg _ r).bind fun _ _ => FaultsAt.ok _ _
    refine (commit_cases hf h).imp_right fun h => ?_
    simp only [Exec.bind_eq_ok] at h
    obtain ⟨r, _, u, h2, _, _, w, h4, x, _, h6⟩ := h
    cases h6
    obtain ⟨h6, rfl⟩ := decSp_writeTop_eq_ok h2 h4
    exact ⟨h6, _, x, rfl⟩
  | ret =>
    refine (commit_cases ((FaultsAt.readTop s).bind fun _ _ => (FaultsAt.incSp s).bind fun _ _ =>
      FaultsAt.ok _ _) h).imp_right fun h => ?_
    simp only [Exec.bind_eq_ok] at h
    obtain ⟨v, _, u, h2, h3⟩ := h
    cases h3
    rw [incSp_eq_ok h2]
    exact ⟨v, _, rfl⟩

end Sys2Proof.Machine
end

