-- ==== Sys2Proof/Laws/PerInstr.lean ====
section
/-! SUPPORT. Facts about every instruction as syntax, one lemma per constructor. -/

/-- The field pattern of the opcode byte (30_encoding.md R64): bits 7:6 are the number of operand bytes, bit 5 marks the
ALU's instructions, bit 4 those that set pc; and the encoding has the instruction's length. -/
def Sys2Proof.Laws.OpcodeFields.Statement (i : Sys2Proof.Instr) : Prop :=
  i.opcode.toNat / 64 + 1 = i.length ∧ (Sys2Proof.encode i).length = i.length ∧
    i.opcode.getLsbD 5 = Sys2Proof.Machine.isAlu i ∧ i.opcode.getLsbD 4 = Sys2Proof.Machine.setsPc i

theorem Sys2Proof.Laws.OpcodeFields.hlt : Sys2Proof.Laws.OpcodeFields.Statement .hlt := by
  simp [Sys2Proof.Laws.OpcodeFields.Statement, Sys2Proof.Instr.opcode, Sys2Proof.encode, Sys2Proof.Instr.length,
    Sys2Proof.Machine.isAlu, Sys2Proof.Machine.setsPc]

theorem Sys2Proof.Laws.OpcodeFields.ldi (a imm : Sys2Proof.Byte) : Sys2Proof.Laws.OpcodeFields.Statement (.ldi a imm) := by
  simp [Sys2Proof.Laws.OpcodeFields.Statement, Sys2Proof.Instr.opcode, Sys2Proof.encode, Sys2Proof.Instr.length,
    Sys2Proof.Machine.isAlu, Sys2Proof.Machine.setsPc]

theorem Sys2Proof.Laws.OpcodeFields.prn (a : Sys2Proof.Byte) : Sys2Proof.Laws.OpcodeFields.Statement (.prn a) := by
  simp [Sys2Proof.Laws.OpcodeFields.Statement, Sys2Proof.Instr.opcode, Sys2Proof.encode, Sys2Proof.Instr.length,
    Sys2Proof.Machine.isAlu, Sys2Proof.Machine.setsPc]

theorem Sys2Proof.Laws.OpcodeFields.mul (a b : Sys2Proof.Byte) : Sys2Proof.Laws.OpcodeFields.Statement (.mul a b) := by
  simp [Sys2Proof.Laws.OpcodeFields.Statement, Sys2Proof.Instr.opcode, Sys2Proof.encode, Sys2Proof.Instr.length,
    Sys2Proof.Machine.isAlu, Sys2Proof.Machine.setsPc]

theorem Sys2Proof.Laws.OpcodeFields.add (a b : Sys2Proof.Byte) : Sys2Proof.Laws.OpcodeFields.Statement (.add a b) := by
  simp [Sys2Proof.Laws.OpcodeFields.Statement, Sys2Proof.Instr.opcode, Sys2Proof.encode, Sys2Proof.Instr.length,
    Sys2Proof.Machine.isAlu, Sys2Proof.Machine.setsPc]

theorem Sys2Proof.Laws.OpcodeFields.mod (a b : Sys2Proof.Byte) : Sys2Proof.Laws.OpcodeFields.Statement (.mod a b) := by
  simp [Sys2Proof.Laws.OpcodeFields.Statement, Sys2Proof.Instr.opcode, Sys2Proof.encode, Sys2Proof.Instr.length,
    Sys2Proof.Machine.isAlu, Sys2Proof.Machine.setsPc]

theorem Sys2Proof.Laws.OpcodeFields.cmp (a b : Sys2Proof.Byte) : Sys2Proof.Laws.OpcodeFields.Statement (.cmp a b) := by
  simp [Sys2Proof.Laws.OpcodeFields.Statement, Sys2Proof.Instr.opcode, Sys2Proof.encode, Sys2Proof.Instr.length,
    Sys2Proof.Machine.isAlu, Sys2Proof.Machine.setsPc]

theorem Sys2Proof.Laws.OpcodeFields.and (a b : Sys2Proof.Byte) : Sys2Proof.Laws.OpcodeFields.Statement (.and a b) := by
  simp [Sys2Proof.Laws.OpcodeFields.Statement, Sys2Proof.Instr.opcode, Sys2Proof.encode, Sys2Proof.Instr.length,
    Sys2Proof.Machine.isAlu, Sys2Proof.Machine.setsPc]

theorem Sys2Proof.Laws.OpcodeFields.or (a b : Sys2Proof.Byte) : Sys2Proof.Laws.OpcodeFields.Statement (.or a b) := by
  simp [Sys2Proof.Laws.OpcodeFields.Statement, Sys2Proof.Instr.opcode, Sys2Proof.encode, Sys2Proof.Instr.length,
    Sys2Proof.Machine.isAlu, Sys2Proof.Machine.setsPc]

theorem Sys2Proof.Laws.OpcodeFields.xor (a b : Sys2Proof.Byte) : Sys2Proof.Laws.OpcodeFields.Statement (.xor a b) := by
  simp [Sys2Proof.Laws.OpcodeFields.Statement, Sys2Proof.Instr.opcode, Sys2Proof.encode, Sys2Proof.Instr.length,
    Sys2Proof.Machine.isAlu, Sys2Proof.Machine.setsPc]

theorem Sys2Proof.Laws.OpcodeFields.not (a : Sys2Proof.Byte) : Sys2Proof.Laws.OpcodeFields.Statement (.not a) := by
  simp [Sys2Proof.Laws.OpcodeFields.Statement, Sys2Proof.Instr.opcode, Sys2Proof.encode, Sys2Proof.Instr.length,
    Sys2Proof.Machine.isAlu, Sys2Proof.Machine.setsPc]

theorem Sys2Proof.Laws.OpcodeFields.shl (a b : Sys2Proof.Byte) : Sys2Proof.Laws.OpcodeFields.Statement (.shl a b) := by
  simp [Sys2Proof.Laws.OpcodeFields.Statement, Sys2Proof.Instr.opcode, Sys2Proof.encode, Sys2Proof.Instr.length,
    Sys2Proof.Machine.isAlu, Sys2Proof.Machine.setsPc]

theorem Sys2Proof.Laws.OpcodeFields.shr (a b : Sys2Proof.Byte) : Sys2Proof.Laws.OpcodeFields.Statement (.shr a b) := by
  simp [Sys2Proof.Laws.OpcodeFields.Statement, Sys2Proof.Instr.opcode, Sys2Proof.encode, Sys2Proof.Instr.length,
    Sys2Proof.Machine.isAlu, Sys2Proof.Machine.setsPc]

theorem Sys2Proof.Laws.OpcodeFields.jmp (a : Sys2Proof.Byte) : Sys2Proof.Laws.OpcodeFields.Statement (.jmp a) := by
  simp [Sys2Proof.Laws.OpcodeFields.Statement, Sys2Proof.Instr.opcode, Sys2Proof.encode, Sys2Proof.Instr.length,
    Sys2Proof.Machine.isAlu, Sys2Proof.Machine.setsPc]

theorem Sys2Proof.Laws.OpcodeFields.jeq (a : Sys2Proof.Byte) : Sys2Proof.Laws.OpcodeFields.Statement (.jeq a) := by
  simp [Sys2Proof.Laws.OpcodeFields.Statement, Sys2Proof.Instr.opcode, Sys2Proof.encode, Sys2Proof.Instr.length,
    Sys2Proof.Machine.isAlu, Sys2Proof.Machine.setsPc]

theorem Sys2Proof.Laws.OpcodeFields.jne (a : Sys2Proof.Byte) : Sys2Proof.Laws.OpcodeFields.Statement (.jne a) := by
  simp [Sys2Proof.Laws.OpcodeFields.Statement, Sys2Proof.Instr.opcode, Sys2Proof.encode, Sys2Proof.Instr.length,
    Sys2Proof.Machine.isAlu, Sys2Proof.Machine.setsPc]

theorem Sys2Proof.Laws.OpcodeFields.push (a : Sys2Proof.Byte) : Sys2Proof.Laws.OpcodeFields.Statement (.push a) := by
  simp [Sys2Proof.Laws.OpcodeFields.Statement, Sys2Proof.Instr.opcode, Sys2Proof.encode, Sys2Proof.Instr.length,
    Sys2Proof.Machine.isAlu, Sys2Proof.Machine.setsPc]

theorem Sys2Proof.Laws.OpcodeFields.pop (a : Sys2Proof.Byte) : Sys2Proof.Laws.OpcodeFields.Statement (.pop a) := by
  simp [Sys2Proof.Laws.OpcodeFields.Statement, Sys2Proof.Instr.opcode, Sys2Proof.encode, Sys2Proof.Instr.length,
    Sys2Proof.Machine.isAlu, Sys2Proof.Machine.setsPc]

theorem Sys2Proof.Laws.OpcodeFields.call (a : Sys2Proof.Byte) : Sys2Proof.Laws.OpcodeFields.Statement (.call a) := by
  simp [Sys2Proof.Laws.OpcodeFields.Statement, Sys2Proof.Instr.opcode, Sys2Proof.encode, Sys2Proof.Instr.length,
    Sys2Proof.Machine.isAlu, Sys2Proof.Machine.setsPc]

theorem Sys2Proof.Laws.OpcodeFields.ret : Sys2Proof.Laws.OpcodeFields.Statement .ret := by
  simp [Sys2Proof.Laws.OpcodeFields.Statement, Sys2Proof.Instr.opcode, Sys2Proof.encode, Sys2Proof.Instr.length,
    Sys2Proof.Machine.isAlu, Sys2Proof.Machine.setsPc]
end

