-- ==== Sys2Proof/Laws/Step.lean ====
section
/-! SUPPORT. All that a step can do, said once: `step_cases`; and what fetching an instruction gives. -/

namespace Sys2Proof.Machine

/-- A step from RUNNING, phase by phase (40_execution_cycle.md R87). -/
theorem step_running {s : State} (h : s.status = .running) :
    step s = match fetchOpcode s with
      | .error f => .next (takeFault f s)
      | .ok op =>
        match decodeAt (s.setIr op) op with
        | .error f => .next (takeFault f (s.setIr op))
        | .ok i => exec i (s.setIr op) := by
  cases s
  cases h
  rfl

theorem FaultsAt.fetchOperands (s : State) (sh : Shape) : FaultsAt s.pc (fetchOperands s sh) := by
  cases sh with
  | n i => exact FaultsAt.ok _ _
  | r f => exact (FaultsAt.memRead s _).bind fun _ _ => FaultsAt.ok _ _
  | rr f =>
    exact (FaultsAt.memRead s _).bind fun _ _ => (FaultsAt.memRead s _).bind fun _ _ => FaultsAt.ok _ _
  | ri f =>
    exact (FaultsAt.memRead s _).bind fun _ _ => (FaultsAt.memRead s _).bind fun _ _ => FaultsAt.ok _ _

theorem FaultsAt.decodeAt (s : State) (op : Byte) : FaultsAt s.pc (decodeAt s op) := by
  unfold Sys2Proof.Machine.decodeAt
  split
  · intro f h; cases h; rfl
  · exact FaultsAt.fetchOperands s _

/-- All that a step can do: a fault of the fetch, a fault of decoding or of an operand fetch, or an instruction. -/
theorem step_cases {s t : State} (h : step s = .next t) :
    s.status = .running ∧
      ((∃ f, f.pc = s.pc ∧ ¬ CellReadable s s.pc ∧ t = takeFault f s) ∨
        (CellReadable s s.pc ∧
          ((∃ f, f.pc = s.pc ∧ t = takeFault f (s.setIr (cellValue s s.pc))) ∨
            ∃ i, decodeAt (s.setIr (cellValue s s.pc)) (cellValue s s.pc) = .ok i ∧
              exec i (s.setIr (cellValue s s.pc)) = .next t))) := by
  have hr : s.status = .running := by
    unfold step at h
    split at h <;> first | cases h | assumption
  refine ⟨hr, ?_⟩
  rw [step_running hr] at h
  unfold fetchOpcode at h
  rcases memRead_cases s s.pc with ⟨h1, e⟩ | ⟨h1, e⟩ | ⟨h1, h2, e⟩
  · rw [e] at h
    cases h
    exact .inl ⟨_, rfl, fun hc => by have := hc.1; omega, rfl⟩
  · rw [e] at h
    refine .inr ⟨h1, ?_⟩
    simp only at h
    split at h
    · rename_i f hd
      cases h
      exact .inl ⟨f, FaultsAt.decodeAt (s.setIr _) _ f hd, rfl⟩
    · rename_i i hd
      exact .inr ⟨i, hd, h⟩
  · rw [e] at h
    cases h
    exact .inl ⟨_, rfl, h2, rfl⟩

end Sys2Proof.Machine
end

