-- ==== Sys2Proof/Tests/Slice0.lean ====
section
/-! SUPPORT. Tests: words and vectors from spec/ (30_encoding.md R63, 95_test_vectors.md), the ill-formed terms that
WellFormed refuses, and a witness for the hypotheses of every obligation. -/

namespace Sys2Proof.Tests

open Sys2Proof Sys2Proof.Machine

/-! ## Decoding: one word for each row of R63, byte 0 lowest -/

theorem test_decode_hlt : decodeTableWord 8 0b00000001 = some .hlt := by decide
theorem test_decode_ldi : decodeTableWord 24 0b00001000_00000011_10000010 = some (.ldi 3 8) := by decide
theorem test_decode_prn : decodeTableWord 16 0b00000011_01000111 = some (.prn 3) := by decide
theorem test_decode_mul : decodeTableWord 24 0b00000001_00000011_10100010 = some (.mul 3 1) := by decide
theorem test_decode_add : decodeTableWord 24 0b00000001_00000011_10100000 = some (.add 3 1) := by decide
theorem test_decode_mod : decodeTableWord 24 0b00000001_00000011_10100100 = some (.mod 3 1) := by decide
theorem test_decode_cmp : decodeTableWord 24 0b00000001_00000011_10100111 = some (.cmp 3 1) := by decide
theorem test_decode_and : decodeTableWord 24 0b00000001_00000011_10101000 = some (.and 3 1) := by decide
theorem test_decode_or : decodeTableWord 24 0b00000001_00000011_10101010 = some (.or 3 1) := by decide
theorem test_decode_xor : decodeTableWord 24 0b00000001_00000011_10101011 = some (.xor 3 1) := by decide
theorem test_decode_not : decodeTableWord 16 0b00000011_01101001 = some (.not 3) := by decide
theorem test_decode_shl : decodeTableWord 24 0b00000001_00000011_10101100 = some (.shl 3 1) := by decide
theorem test_decode_shr : decodeTableWord 24 0b00000001_00000011_10101101 = some (.shr 3 1) := by decide
theorem test_decode_jmp : decodeTableWord 16 0b00000011_01010100 = some (.jmp 3) := by decide
theorem test_decode_jeq : decodeTableWord 16 0b00000011_01010101 = some (.jeq 3) := by decide
theorem test_decode_jne : decodeTableWord 16 0b00000011_01010110 = some (.jne 3) := by decide
theorem test_decode_push : decodeTableWord 16 0b00000011_01000101 = some (.push 3) := by decide
theorem test_decode_pop : decodeTableWord 16 0b00000011_01000110 = some (.pop 3) := by decide
theorem test_decode_call : decodeTableWord 16 0b00000011_01010000 = some (.call 3) := by decide
theorem test_decode_ret : decodeTableWord 8 0b00010001 = some .ret := by decide

/-- An operand above 7 is not part of the decode (R69), and operand words of zeros above `nbits`. -/
theorem test_decode_operand_unmasked : decodeTableWord 16 0xFF47 = some (.prn 0xFF) := by decide
theorem test_decode_short_word : decodeTableWord 8 0xFFFFA0 = some (.add 0 0) := by decide
theorem test_decode_illegal : decodeTableWord 8 0xA1 = none := by decide
theorem test_decode_truncated : decode defaultConfig [0x82, 0] = .error (.missingOperand 0x82) := by rfl

/-! ## WellFormed refuses -/

def cfgNoShifts : Config := { shiftsEnabled := false, uninitRead := .fault }
def cfgZero : Config := { shiftsEnabled := true, uninitRead := .zero }

theorem test_wf_first_operand : (Instr.ldi 8 0).wellFormed defaultConfig = false := by decide
theorem test_wf_second_operand : (Instr.add 7 8).wellFormed defaultConfig = false := by decide
theorem test_wf_shl_absent : (Instr.shl 0 1).wellFormed cfgNoShifts = false := by decide
theorem test_wf_shr_absent : (Instr.shr 0 1).wellFormed cfgNoShifts = false := by decide
theorem test_wf_accepts : (Instr.shl 7 7).wellFormed defaultConfig = true := by decide

/-! ## One step: vectors of 95_test_vectors.md -/

/-- A state with bytes at pc, registers written in order, FL, and further cells. -/
def mk (pc : Nat) (bytes : List Byte) (regs : List (Reg × Byte)) (fl : Byte := 0) (cells : List (Nat × Byte) := [])
    (c : Config := defaultConfig) : State :=
  let s := regs.foldl (fun s r => s.setReg r.1 r.2) (State.resetWith c)
  { s with
    pc := pc
    fl := fl
    mem := cells.foldl (fun m x => Memory.write m x.1 x.2) (storeBytes [] pc bytes) }

/-- The state after one step, seen through `f`. -/
def see {α : Type} (s : State) (f : State → α) : Option α :=
  match step s with
  | .next t => some (f t)
  | .fault _ => none
  | .refused _ => none

/-- The fault record and pc of a FAULTED state. -/
def record (t : State) : Status × Option FaultRecord × Nat := (t.status, t.fault, t.pc)

/-- V-HLT1, V-HLT2. -/
theorem test_hlt : see (mk 0 [0x01] []) (fun t => (t.status, t.pc)) = some (.halted, 1) := by decide
theorem test_hlt_at_255 : see (mk 255 [0x01] []) (fun t => (t.status, t.pc)) = some (.halted, 256) := by decide
/-- V-LDI2, V-LDI5. -/
theorem test_ldi_sp : see (mk 0 [0x82, 7, 0x20] []) (fun t => (t.x[7], t.pc)) = some (0x20, 3) := by decide
theorem test_ldi_beyond_memory :
    see (mk 254 [0x82, 0] []) record = some (.faulted, some (.memoryBounds 254 256), 254) := by decide
/-- V-PRN1, V-PRN3. -/
theorem test_prn_sp : see (mk 0 [0x47, 7] []) (fun t => (t.out, t.pc)) = some ([244], 2) := by decide
theorem test_prn_unwritten_zero :
    see (mk 0 [0x47, 3] [] 0 [] cfgZero) (fun t => (t.out, t.pc)) = some ([0], 2) := by decide
/-- V-MUL3, V-MUL2. -/
theorem test_mul : see (mk 0 [0xA2, 0, 1] [(0, 20), (1, 13)]) (fun t => (t.x[0], t.x[1], t.pc)) = some (4, 13, 3) := by
  decide
theorem test_mul_255 : see (mk 0 [0xA2, 0, 1] [(0, 255), (1, 255)]) (fun t => t.x[0]) = some 1 := by decide
/-- V-ADD4, V-ADD7. -/
theorem test_add_sp_wraps : see (mk 0 [0xA0, 7, 1] [(1, 0x10)]) (fun t => (t.x[7], t.fl)) = some (4, 0) := by decide
theorem test_add_index_before_read :
    see (mk 0 [0xA0, 8, 1] []) record = some (.faulted, some (.registerBounds 0 8), 0) := by decide
/-- V-MOD1, V-MOD5. -/
theorem test_mod : see (mk 0 [0xA4, 0, 1] [(0, 10), (1, 3)]) (fun t => t.x[0]) = some 1 := by decide
theorem test_mod_by_zero : see (mk 0 [0xA4, 0, 1] [(0, 9), (1, 0)]) (fun t => (record t, t.x[0])) =
    some ((.faulted, some (.divisionByZero 0), 0), 9) := by decide
/-- V-CMP4, V-CMP6. -/
theorem test_cmp_unsigned : see (mk 0 [0xA7, 0, 1] [(0, 0), (1, 255)]) (fun t => t.fl) = some 0x04 := by decide
theorem test_cmp_same : see (mk 0 [0xA7, 0, 0] [(0, 0x5A)] 0x04) (fun t => (t.fl, t.x[0])) = some (0x01, 0x5A) := by
  decide
/-- V-AND1, V-OR1, V-XOR1, V-NOT2. -/
theorem test_and : see (mk 0 [0xA8, 0, 1] [(0, 0xF0), (1, 0x3C)]) (fun t => t.x[0]) = some 0x30 := by decide
theorem test_or : see (mk 0 [0xAA, 0, 1] [(0, 0xF0), (1, 0x3C)]) (fun t => t.x[0]) = some 0xFC := by decide
theorem test_xor : see (mk 0 [0xAB, 0, 1] [(0, 0xF0), (1, 0x3C)]) (fun t => t.x[0]) = some 0xCC := by decide
theorem test_not : see (mk 0 [0x69, 2] [(2, 0xA5)]) (fun t => (t.x[2], t.pc)) = some (0x5A, 2) := by decide
/-- V-SHL1, V-SHL7; V-SHR3, V-SHR4. -/
theorem test_shl : see (mk 0 [0xAC, 0, 1] [(0, 0x81), (1, 1)]) (fun t => t.x[0]) = some 0x02 := by decide
theorem test_shl_disabled : see (mk 0 [0xAC, 0, 1] [(0, 1), (1, 1)] 0 [] cfgNoShifts) record =
    some (.faulted, some (.decodeError 0xAC 0), 0) := by decide
theorem test_shr_logical : see (mk 0 [0xAD, 0, 1] [(0, 0xFF), (1, 1)]) (fun t => t.x[0]) = some 0x7F := by decide
theorem test_shr_by_8 : see (mk 0 [0xAD, 0, 1] [(0, 0xFF), (1, 8)]) (fun t => t.x[0]) = some 0 := by decide
/-- V-JMP1, V-JMP2. -/
theorem test_jmp : see (mk 0x20 [0x54, 3] [(3, 0x0C)]) (fun t => t.pc) = some 0x0C := by decide
theorem test_jmp_unwritten :
    see (mk 0x20 [0x54, 3] []) record = some (.faulted, some (.uninitRegister 0x20 3), 0x20) := by decide
/-- V-JEQ1, V-JEQ5; V-JNE3, V-JNE4. -/
theorem test_jeq_taken : see (mk 0x10 [0x55, 3] [(3, 0x20)] 0x01) (fun t => t.pc) = some 0x20 := by decide
theorem test_jeq_not_taken_unread :
    see (mk 0x10 [0x55, 3] []) (fun t => (t.status, t.pc)) = some (.running, 0x12) := by decide
theorem test_jne_taken : see (mk 0x14 [0x56, 3] [(3, 0x0C)] 0x02) (fun t => t.pc) = some 0x0C := by decide
theorem test_jne_not_taken : see (mk 0x14 [0x56, 3] [(3, 0x0C)] 0x01) (fun t => t.pc) = some 0x16 := by decide
/-- V-PUSH2, V-PUSH4. -/
theorem test_push_sp : see (mk 0 [0x45, 7] []) (fun t => (t.x[7], Memory.lookup t.mem 0xF3, t.pc)) =
    some (0xF3, some 0xF3, 2) := by decide
theorem test_push_over_code : see (mk 0 [0x45, 2] [(2, 5), (7, 1)]) (fun t => (t.x[7], t.mem)) =
    some (0, [(0, 5), (1, 2)]) := by decide
/-- V-POP2, V-POP4. -/
theorem test_pop_sp : see (mk 0 [0x46, 7] [(7, 0xF3)] 0 [(0xF3, 0x40)]) (fun t => t.x[7]) = some 0x41 := by decide
theorem test_pop_at_255 : see (mk 0 [0x46, 3] [(7, 0xFF)] 0 [(0xFF, 9)]) (fun t => (record t, t.x[3], t.xWritten[3])) =
    some ((.faulted, some (.stackBounds 0 255), 0), 0, false) := by decide
/-- V-CALL2, V-CALL4. -/
theorem test_call_sp : see (mk 9 [0x50, 7] []) (fun t => (t.x[7], Memory.lookup t.mem 0xF3, t.pc)) =
    some (0xF3, some 0x0B, 0xF3) := by decide
theorem test_call_at_254 : see (mk 254 [0x50, 2] [(2, 0x0E)]) (fun t => (record t, t.x[7])) =
    some ((.faulted, some (.returnAddressRange 254 256), 254), 0xF4) := by decide
/-- V-RET1, V-RET3. -/
theorem test_ret : see (mk 0x11 [0x11] [(7, 0xF3)] 0 [(0xF3, 0x0B)]) (fun t => (t.pc, t.x[7])) = some (0x0B, 0xF4) := by
  decide
theorem test_ret_unwritten :
    see (mk 0x11 [0x11] []) record = some (.faulted, some (.uninitMemory 0x11 0xF4), 0x11) := by decide
/-- V-DEC2, V-DEC3. -/
theorem test_decode_before_operands :
    see (mk 255 [0x02] []) record = some (.faulted, some (.decodeError 0x02 255), 255) := by decide
theorem test_fetch_at_256 :
    see (mk 256 [] []) record = some (.faulted, some (.memoryBounds 256 256), 256) := by decide
/-- The host's word for LDI R0, 8 runs as the first instruction after reset. -/
theorem test_with_fetch_word :
    see (State.reset.withFetchWord 24 0x080082) (fun t => (t.x[0], t.pc, t.ir)) = some (8, 3, 0x82) := by decide
/-- 10_state.md R31: 244 is printed as its digits and a newline. -/
theorem test_render : renderOutput [244, 0] = "244\n0\n".toList := by decide
/-- 30_encoding.md R70: the source's own example text. -/
theorem test_assemble : assemble "LDI R0,8".toList = some [0x82, 0x00, 0x08] := by decide
theorem test_assemble_refuses : assemble "PUSH SP".toList = none := by decide

/-! ## Witnesses: concrete states and operands that meet each obligation's hypotheses, clause by clause -/

/-- R0 and R7 written, R1 not. -/
def half : State := mk 0 [0x01] [(0, 9)]

theorem witness_ResetHasTheSpecifiedValues : (6 : Reg) ≠ 7 := by decide

theorem witness_BootLoadsTheImageAtZero :
    256 < (List.replicate 257 (0 : Byte)).length ∧ (List.replicate 256 (0 : Byte)).length ≤ 256 :=
  ⟨by rw [List.length_replicate]; decide, by rw [List.length_replicate]⟩

theorem witness_DecodeAndEncodeAgree :
    decode cfgNoShifts [0x47, 7, 1] = .ok (.prn 7, [1]) ∧ (Instr.prn 7).present cfgNoShifts = true := ⟨rfl, rfl⟩

theorem witness_IllegalOpcodesRaiseDecodeError :
    (∃ s : State, s.status = .running ∧ CellReadable s s.pc ∧ illegalOpcode s.config (cellValue s s.pc) = true) ∧
    (∀ n ∈ [0x00, 0x02, 0x10, 0x12, 0x44, 0x48, 0x6A, 0xA9, 0xAE, 0xFF],
      illegalOpcode defaultConfig (BitVec.ofNat 8 n) = true) ∧
    (∀ n ∈ [0x01, 0x11, 0x45, 0x47, 0x69, 0x82, 0xA8, 0xAD], illegalOpcode defaultConfig (BitVec.ofNat 8 n) = false) ∧
    illegalOpcode cfgNoShifts 0xAC = true := by
  refine ⟨⟨mk 255 [0xFF] [], ?_⟩, ?_⟩ <;> decide

theorem witness_StepRunsTheDecodedInstruction :
    ∃ s : State, s.status = .running ∧ decode s.config (codeBytes s s.pc 3) = .ok (.not 0, []) :=
  ⟨mk 254 [0x69, 0] [], rfl, rfl⟩

theorem witness_FetchReadsTheOpcodeByte :
    (∃ s : State, s.status = .running ∧ 255 < s.pc) ∧
    (∃ s : State, s.status = .running ∧ s.pc ≤ 255 ∧ ¬ CellReadable s s.pc) ∧
    (∃ s : State, s.status = .running ∧ CellReadable s s.pc) :=
  ⟨⟨mk 256 [] [], by decide⟩, ⟨mk 255 [] [], by decide⟩, ⟨mk 255 [0x01] [], by decide⟩⟩

theorem witness_OperandBytesAreReadInOrder :
    (∃ s : State, s.status = .running ∧ CellReadable s s.pc ∧ cellValue s s.pc = (Instr.ldi 0 0).opcode ∧
      CellReadable s (s.pc + 1) ∧ 255 < s.pc + 2) ∧
    (∃ s : State, s.status = .running ∧ CellReadable s s.pc ∧ cellValue s s.pc = (Instr.ldi 0 0).opcode ∧
      CellReadable s (s.pc + 1) ∧ s.pc + 2 ≤ 255 ∧ ¬ CellReadable s (s.pc + 2)) ∧
    (∃ s : State, s.status = .running ∧ (Instr.ldi 0 9).present s.config = true ∧
      (CellReadable s s.pc ∧ (encode (.ldi 0 9))[0]? = some (cellValue s s.pc)) ∧
      (CellReadable s (s.pc + 1) ∧ (encode (.ldi 0 9))[1]? = some (cellValue s (s.pc + 1))) ∧
      (CellReadable s (s.pc + 2) ∧ (encode (.ldi 0 9))[2]? = some (cellValue s (s.pc + 2)))) :=
  ⟨⟨mk 254 [0x82, 0] [], by decide⟩, ⟨mk 253 [0x82, 0] [], by decide⟩, ⟨mk 253 [0x82, 0, 9] [], by decide⟩⟩

theorem witness_RegisterBoundsComesBeforeAnyRead :
    (Instr.add 8 9).regOperands.find? (fun w => decide (7 < w.toNat)) = some 8 ∧
    (Instr.add 7 255).regOperands.find? (fun w => decide (7 < w.toNat)) = some 255 := by decide

theorem witness_TerminalStatesTakeNoStep :
    { half with status := .halted }.status = .halted ∧ { half with status := .faulted }.status = .faulted := by decide

theorem witness_RunningStepsAlwaysAnswer : half.status = .running := by decide

theorem witness_FaultsArePrecise : ∃ t, step (mk 256 [] []) = .next t ∧ t.status = .faulted := ⟨_, rfl, rfl⟩

theorem witness_inv : MachineInv half :=
  ⟨by decide, by decide, by decide, by decide, by decide, fun f h => by cases h⟩

theorem witness_StepKeepsTheMachineWellFormed : MachineInv half ∧ ∃ t, step half = .next t := ⟨witness_inv, _, rfl⟩

theorem witness_BootIsWellFormed : ∃ s, boot cfgZero [0x01] = some s := ⟨_, rfl⟩

theorem witness_PrnEmitsTheRegister : Readable half 7 ∧ ¬ Readable half 6 ∧ Readable (mk 0 [] [] 0 [] cfgZero) 6 := by
  decide

/-- For MUL, ADD, AND, OR, XOR, SHL, SHR, CMP: the three cases of the two reads. -/
theorem witness_AluRule :
    (Readable half 0 ∧ Readable half 7) ∧ ¬ Readable half 1 ∧ (Readable half 0 ∧ ¬ Readable half 1) := by decide

theorem witness_MulAndAddWrapModulo256 : Readable half 0 ∧ Readable half 7 := witness_AluRule.1

theorem witness_AndOrXorCombineTheRegisters : Readable half 0 ∧ ¬ Readable half 1 := witness_AluRule.2.2

theorem witness_BitwiseResultsAreBitByBit : 7 < 8 ∧ Readable half 0 ∧ Readable half 7 := by decide

theorem witness_ShiftsUseTheWholeAmount :
    (∃ s : State, s.status = .running ∧ s.config.shiftsEnabled = false ∧ CellReadable s s.pc ∧
      cellValue s s.pc = 0xAC) ∧
    (∃ s : State, s.status = .running ∧ s.config.shiftsEnabled = false ∧ CellReadable s s.pc ∧
      cellValue s s.pc = 0xAD) :=
  ⟨⟨mk 0 [0xAC] [] 0 [] cfgNoShifts, by decide⟩, ⟨mk 0 [0xAD] [] 0 [] cfgNoShifts, by decide⟩⟩

theorem witness_ModTakesTheUnsignedRemainder :
    (Readable half 7 ∧ Readable half 0 ∧ regValue half 0 ≠ 0) ∧
    (∃ s : State, Readable s 0 ∧ regValue s 0 = 0) ∧ ¬ Readable half 1 ∧ (Readable half 0 ∧ ¬ Readable half 1) :=
  ⟨by decide, ⟨mk 0 [] [(0, 0)], by decide⟩, by decide⟩

theorem witness_CmpWritesTheWholeFlagsRegister :
    (Readable half 0 ∧ Readable half 7) ∧ ¬ Readable half 1 ∧ (Readable half 0 ∧ ¬ Readable half 1) := witness_AluRule

theorem witness_CmpSetsExactlyOneFlagBit : Readable half 0 ∧ Readable half 0 := by decide

theorem witness_NotComplementsTheRegister : Readable half 0 ∧ ¬ Readable half 6 := by decide

theorem witness_JmpJumpsToTheRegister : Readable half 7 ∧ ¬ Readable half 6 := by decide

theorem witness_ConditionalJumpsFollowE :
    ({ half with fl := 0x01 }.fl.getLsbD 0 = true ∧ Readable half 0 ∧ ¬ Readable half 1) ∧
    (half.fl.getLsbD 0 = false ∧ Readable half 0 ∧ ¬ Readable half 1) ∧ 7 < (8 : Byte).toNat := by decide

theorem witness_PushStoresBelowSp :
    (∃ s : State, s.xWritten[SP] = true ∧ 1 ≤ (regValue s SP).toNat ∧ (regValue s SP).toNat < 2) ∧
    (∃ s : State, s.xWritten[SP] = true ∧ regValue s SP = 0) ∧
    (half.xWritten[SP] = true ∧ 1 ≤ (regValue half SP).toNat ∧ (1 : Reg) ≠ SP ∧ ¬ Readable half 1) :=
  ⟨⟨mk 0 [] [(7, 1)], by decide⟩, ⟨mk 0 [] [(7, 0)], by decide⟩, by decide⟩

theorem witness_PopLoadsFromSp :
    (∃ s : State, s.xWritten[SP] = true ∧ CellReadable s (regValue s SP).toNat ∧ (regValue s SP).toNat = 254) ∧
    (∃ s : State, s.xWritten[SP] = true ∧ CellReadable s (regValue s SP).toNat ∧ regValue s SP = 255) ∧
    (∃ s : State, s.xWritten[SP] = true ∧ CellReadable s (regValue s SP).toNat ∧
      (cellValue s (regValue s SP).toNat).toNat = 254) ∧
    (∃ s : State, s.xWritten[SP] = true ∧ CellReadable s (regValue s SP).toNat ∧
      cellValue s (regValue s SP).toNat = 255) ∧
    (half.xWritten[SP] = true ∧ ¬ CellReadable half (regValue half SP).toNat) :=
  ⟨⟨mk 0 [] [(7, 254)] 0 [(254, 1)], by decide⟩, ⟨mk 0 [] [(7, 255)] 0 [(255, 1)], by decide⟩,
    ⟨mk 0 [] [(7, 8)] 0 [(8, 254)], by decide⟩, ⟨mk 0 [] [(7, 8)] 0 [(8, 255)], by decide⟩, by decide⟩

theorem witness_CallPushesTheReturnAddress :
    (∃ s : State, s.xWritten[SP] = true ∧ 1 ≤ (regValue s SP).toNat ∧ s.pc + 2 = 255 ∧ Readable s 0) ∧
    (∃ s : State, s.xWritten[SP] = true ∧ regValue s SP = 0) ∧
    (∃ s : State, s.xWritten[SP] = true ∧ 1 ≤ (regValue s SP).toNat ∧ s.pc + 2 = 256) ∧
    (half.xWritten[SP] = true ∧ 1 ≤ (regValue half SP).toNat ∧ half.pc + 2 ≤ 255 ∧ (1 : Reg) ≠ SP ∧
      ¬ Readable half 1) :=
  ⟨⟨mk 253 [] [(0, 4)], by decide⟩, ⟨mk 0 [] [(7, 0)], by decide⟩, ⟨mk 254 [] [], by decide⟩, by decide⟩

theorem witness_RetPopsThePc :
    (∃ s : State, s.xWritten[SP] = true ∧ CellReadable s (regValue s SP).toNat ∧ (regValue s SP).toNat = 254) ∧
    (∃ s : State, s.xWritten[SP] = true ∧ CellReadable s (regValue s SP).toNat ∧ regValue s SP = 255) ∧
    (half.xWritten[SP] = true ∧ ¬ CellReadable half (regValue half SP).toNat) :=
  ⟨⟨mk 0 [] [(7, 254)] 0 [(254, 1)], by decide⟩, ⟨mk 0 [] [(7, 255)] 0 [(255, 1)], by decide⟩, by decide⟩

theorem witness_StackRoundTrips :
    ∃ s : State, (∀ r : Reg, s.xWritten[r] = true) ∧ 1 ≤ (regValue s SP).toNat ∧ s.pc = 253 ∧ (0 : Reg) ≠ SP ∧
      (6 : Reg) ≠ SP :=
  ⟨mk 253 [] [(0, 1), (1, 1), (2, 1), (3, 1), (4, 1), (5, 1), (6, 1), (7, 1)], by decide⟩

theorem witness_StackStoreIsFetchedNext :
    (∃ s : State, s.xWritten[SP] = true ∧ 1 ≤ (regValue s SP).toNat ∧ Readable s 0 ∧
      s.pc + 2 = (regValue s SP).toNat - 1 ∧ s.pc + 2 ≤ 255) ∧
    (∃ s : State, s.xWritten[SP] = true ∧ 1 ≤ (regValue s SP).toNat ∧ Readable s 0 ∧ s.pc + 2 = 255 ∧ (0 : Reg) ≠ SP ∧
      (regValue s 0).toNat = (regValue s SP).toNat - 1) :=
  ⟨⟨mk 6 [0x45, 0] [(7, 9), (0, 1)], by decide⟩, ⟨mk 253 [0x50, 0] [(7, 1), (0, 0)], by decide⟩⟩

theorem witness_OnlyDestinationRegistersChange :
    ∃ t, exec (.add 0 7) half = .next t ∧ regByte 7 ∉ destinations (.add 0 7) := ⟨_, rfl, by decide⟩

theorem witness_OnlyPushAndCallWriteMemory :
    (∃ t, exec (.add 0 7) half = .next t) ∧
    (∃ t, exec (.push 0) half = .next t ∧ 0xF2 ≠ (regValue half SP).toNat - 1) := ⟨⟨_, rfl⟩, _, rfl, by decide⟩

theorem witness_OnlyTheOwnerChangesOtherState : ∃ t, exec (.add 0 7) half = .next t := ⟨_, rfl⟩

theorem witness_PcAdvancesByTheLength :
    (∃ t, half.status = .running ∧ exec (.add 0 7) half = .next t ∧ t.status ≠ .faulted ∧ setsPc (.add 0 7) = false) ∧
    (∃ t, exec (.jeq 1) half = .next t ∧ t.status ≠ .faulted ∧ half.fl.getLsbD 0 = false) ∧
    (∃ t, exec (.jne 1) { half with fl := 0x01 } = .next t ∧ t.status ≠ .faulted) :=
  ⟨⟨_, rfl, rfl, by decide, rfl⟩, ⟨_, rfl, by decide, rfl⟩, _, rfl, by decide⟩

theorem witness_MemReadFollowsItsRule :
    255 < 256 ∧ Memory.lookup (mk 255 [0x01] []).mem 255 = some 0x01 ∧
    (Memory.lookup half.mem 255 = none ∧ half.config.uninitRead = .fault) ∧
    (Memory.lookup (mk 0 [] [] 0 [] cfgZero).mem 255 = none ∧ (mk 0 [] [] 0 [] cfgZero).config.uninitRead = .zero) := by
  decide

theorem witness_MemWriteIsReadBack : 255 < 256 ∧ 255 ≤ 255 ∧ 0 ≠ 255 ∧ Memory.wf half.mem = true := by decide

theorem witness_OnlyHltHaltsTheEngine : ∃ t, step half = .next t ∧ t.status = .halted := ⟨_, rfl, rfl⟩

theorem witness_OutputOnlyGrowsAndConfigurationIsFixed : ∃ t, step half = .next t := ⟨_, rfl⟩

theorem witness_UnwrittenRegistersAreNeverObserved :
    (∃ t, step half = .next t) ∧ ∃ f, step { half with status := .halted } = .fault f := ⟨⟨_, rfl⟩, _, rfl⟩

theorem witness_UninitFaultRefinesUninitZero : ∃ t, step half = .next t ∧ t.status ≠ .faulted := ⟨_, rfl, by decide⟩

theorem witness_RunsComposeAndEndInTerminalStates : { half with status := .faulted }.status ≠ .running := by decide

theorem witness_JumpToItselfRunsForever :
    ∃ s : State, s.status = .running ∧ Memory.lookup s.mem s.pc = some 0x54 ∧ s.pc + 1 ≤ 255 ∧
      Memory.lookup s.mem (s.pc + 1) = some (regByte 3) ∧ Readable s 3 ∧ (regValue s 3).toNat = s.pc :=
  ⟨mk 254 [0x54, 3] [(3, 254)], by decide⟩

theorem witness_OutcomeReportsHaltedOrTheRecord :
    MachineInv half ∧ outcome { half with status := .halted } = some .halted ∧ (1 : Nat) ≠ 0 :=
  ⟨witness_inv, rfl, by decide⟩

theorem witness_AssemblyTextReadsBack : (Instr.add 0 7).regsInRange = true := by decide

end Sys2Proof.Tests
end

/-! SUPPORT. The statements of 00_scope.md: terminal states take no step, and a step without a fault is the same step
under UNINIT_READ = Zero. -/

namespace Sys2Proof.Machine

/-! ## Terminal states -/

theorem step_halted {s : State} (h : s.status = .halted) : step s = .fault .noStepHalted := by
  simp [step, h]

theorem step_faulted {s : State} (h : s.status = .faulted) : step s = .fault .noStepFaulted := by
  simp [step, h]

/-- Settles O11: `step` looks at the status before anything else. -/
theorem terminalStatesTakeNoStep : Obligations.TerminalStatesTakeNoStep :=
  fun _ => ⟨step_halted, step_faulted⟩

/-! ## The state under UNINIT_READ = Zero

It differs from the state in the configuration only, so `withUninitZero` commutes with every update by definition (which
is what `OkMaps.ok` below is given), and every register and every cell inside memory can be read. -/

theorem readable_withUninitZero (s : State) (r : Reg) : Readable (withUninitZero s) r := .inr rfl

theorem CellReadable.withUninitZero {s : State} {a : Nat} (h : CellReadable s a) : CellReadable (withUninitZero s) a :=
  ⟨h.1, .inr rfl⟩

/-- UNINIT_READ is no part of the dispatch table. -/
theorem dispatch_withUninitZero (s : State) (op : Byte) :
    dispatch (withUninitZero s).config op = dispatch s.config op := rfl

theorem readReg_eq_ok {s : State} {r : Reg} {v : Byte} (h : readReg s r = .ok v) : Readable s r ∧ v = regValue s r := by
  rcases readReg_cases s r with ⟨hr, e⟩ | ⟨_, e⟩ <;> rw [e] at h <;> cases h
  exact ⟨hr, rfl⟩

/-! ## Refinement of computations -/

/-- Whenever the first computation completes, the second one does, with the image of the first one's value. -/
def OkMaps {α β : Type} (g : α → β) (r : Exec α) (r' : Exec β) : Prop := ∀ a, r = .ok a → r' = .ok (g a)

theorem OkMaps.ok {α β : Type} (g : α → β) (a : α) : OkMaps g (.ok a) (.ok (g a)) := fun _ h => by cases h; rfl

theorem OkMaps.refl {α : Type} (r : Exec α) : OkMaps id r r := fun _ h => h

theorem OkMaps.bind {α β γ δ : Type} {g : α → β} {g' : γ → δ} {r : Exec α} {r' : Exec β} {k : α → Exec γ}
    {k' : β → Exec δ} (hr : OkMaps g r r') (hk : ∀ a, OkMaps g' (k a) (k' (g a))) :
    OkMaps g' (r >>= k) (r' >>= k') := by
  intro c h
  obtain ⟨a, ha, hc⟩ := Exec.bind_eq_ok.1 h
  exact Exec.bind_eq_ok.2 ⟨g a, hr a ha, hk a c hc⟩

/-! Each shared operation, under UNINIT_READ = Zero. -/

theorem regOperand_okMaps (s : State) (v : Byte) : OkMaps id (regOperand s v) (regOperand (withUninitZero s) v) :=
  OkMaps.refl _

theorem require_okMaps {b : Bool} {f f' : FaultRecord} : OkMaps id (require b f) (require b f') := by
  cases b with
  | true => exact OkMaps.refl _
  | false => exact fun _ h => nomatch h

theorem readReg_okMaps (s : State) (r : Reg) : OkMaps id (readReg s r) (readReg (withUninitZero s) r) := by
  intro v h
  obtain ⟨_, rfl⟩ := readReg_eq_ok h
  exact readReg_readable (readable_withUninitZero s r)

theorem memRead_okMaps (s : State) (a : Nat) : OkMaps id (memRead s a) (memRead (withUninitZero s) a) := by
  intro v h
  obtain ⟨hc, rfl⟩ := memRead_eq_ok h
  exact memRead_readable hc.withUninitZero

theorem memWrite_okMaps (s : State) (a : Nat) (v : Byte) :
    OkMaps withUninitZero (memWrite s a v) (memWrite (withUninitZero s) a v) := by
  by_cases ha : 255 < a
  · rw [memWrite_outside s ha]
    exact fun _ h => nomatch h
  · rw [memWrite_ok s (by omega), memWrite_ok _ (by omega)]
    exact OkMaps.ok withUninitZero _

theorem decSp_okMaps (s : State) : OkMaps withUninitZero (decSp s) (decSp (withUninitZero s)) :=
  (readReg_okMaps s SP).bind fun _ => require_okMaps.bind fun _ => OkMaps.ok withUninitZero _

theorem incSp_okMaps (s : State) : OkMaps withUninitZero (incSp s) (incSp (withUninitZero s)) :=
  (readReg_okMaps s SP).bind fun _ => require_okMaps.bind fun _ => OkMaps.ok withUninitZero _

theorem readTop_okMaps (s : State) : OkMaps id (readTop s) (readTop (withUninitZero s)) :=
  (readReg_okMaps s SP).bind fun _ => memRead_okMaps s _

theorem writeTop_okMaps (s : State) (v : Byte) :
    OkMaps withUninitZero (writeTop s v) (writeTop (withUninitZero s) v) :=
  (readReg_okMaps s SP).bind fun _ => memWrite_okMaps s _ v

theorem aluOperands_okMaps (op : AluOp) (a b : Byte) (s : State) :
    OkMaps id (aluOperands op a b s) (aluOperands op a b (withUninitZero s)) :=
  (regOperand_okMaps s a).bind fun ra => (regOperand_okMaps s b).bind fun rb =>
    (readReg_okMaps s ra).bind fun _ => (readReg_okMaps s rb).bind fun _ => OkMaps.refl _

theorem aluToReg_okMaps (op : AluOp) (a b : Byte) (s : State) :
    OkMaps withUninitZero (aluToReg op a b s) (aluToReg op a b (withUninitZero s)) :=
  (aluOperands_okMaps op a b s).bind fun _ => OkMaps.ok withUninitZero _

theorem jumpTo_okMaps (s : State) (r : Reg) : OkMaps withUninitZero (jumpTo s r) (jumpTo (withUninitZero s) r) :=
  (readReg_okMaps s r).bind fun _ => OkMaps.ok withUninitZero _

theorem jumpIf_okMaps (taken : Bool) (a : Byte) (s : State) :
    OkMaps withUninitZero (jumpIf taken a s) (jumpIf taken a (withUninitZero s)) := by
  refine (regOperand_okMaps s a).bind fun r => ?_
  cases taken with
  | true => exact jumpTo_okMaps s r
  | false => exact OkMaps.ok withUninitZero _

theorem fetchOperands_okMaps (s : State) (sh : Shape) :
    OkMaps id (fetchOperands s sh) (fetchOperands (withUninitZero s) sh) := by
  cases sh with
  | n i => exact OkMaps.refl _
  | r f => exact (memRead_okMaps s _).bind fun _ => OkMaps.refl _
  | rr f => exact (memRead_okMaps s _).bind fun _ => (memRead_okMaps s _).bind fun _ => OkMaps.refl _
  | ri f => exact (memRead_okMaps s _).bind fun _ => (memRead_okMaps s _).bind fun _ => OkMaps.refl _

theorem decodeAt_okMaps (s : State) (op : Byte) : OkMaps id (decodeAt s op) (decodeAt (withUninitZero s) op) := by
  unfold decodeAt
  rw [dispatch_withUninitZero]
  cases dispatch s.config op with
  | none => exact fun _ h => nomatch h
  | some sh => exact fetchOperands_okMaps s sh

/-! ## Refinement of answers -/

/-- Whenever the first answer is a next state without a fault, the second one is that state under UNINIT_READ = Zero. -/
def RefinesUninitZero (r r' : Answer) : Prop :=
  ∀ t, r = .next t → t.status ≠ .faulted → r' = .next (withUninitZero t)

/-- A commit answers FAULTED when its computation raises a fault, and otherwise the computation's value. -/
theorem OkMaps.commit {s s' : State} {r r' : Exec State} (hr : OkMaps withUninitZero r r') :
    RefinesUninitZero (commit s r) (commit s' r') := by
  intro t h ht
  cases r with
  | ok u =>
    cases h
    rw [hr t rfl, commit_ok]
  | error f =>
    cases h
    exact absurd (takeFault_status f s) ht

theorem exec_refinesUninitZero (i : Instr) (s : State) : RefinesUninitZero (exec i s) (exec i (withUninitZero s)) := by
  cases i with
  | hlt => exact OkMaps.commit (s := s) (s' := withUninitZero s) (OkMaps.ok withUninitZero _)
  | ldi a imm => exact OkMaps.commit ((regOperand_okMaps s a).bind fun _ => OkMaps.ok withUninitZero _)
  | prn a =>
    exact OkMaps.commit ((regOperand_okMaps s a).bind fun r => (readReg_okMaps s r).bind fun _ =>
      OkMaps.ok withUninitZero _)
  | mul a b => exact OkMaps.commit (aluToReg_okMaps .mul a b s)
  | add a b => exact OkMaps.commit (aluToReg_okMaps .add a b s)
  | mod a b => exact OkMaps.commit (aluToReg_okMaps .mod a b s)
  | cmp a b => exact OkMaps.commit ((aluOperands_okMaps .cmp a b s).bind fun _ => OkMaps.ok withUninitZero _)
  | and a b => exact OkMaps.commit (aluToReg_okMaps .and a b s)
  | or a b => exact OkMaps.commit (aluToReg_okMaps .or a b s)
  | xor a b => exact OkMaps.commit (aluToReg_okMaps .xor a b s)
  | not a =>
    exact OkMaps.commit ((regOperand_okMaps s a).bind fun r => (readReg_okMaps s r).bind fun _ =>
      (OkMaps.refl _).bind fun _ => OkMaps.ok withUninitZero _)
  | shl a b => exact OkMaps.commit (aluToReg_okMaps .shl a b s)
  | shr a b => exact OkMaps.commit (aluToReg_okMaps .shr a b s)
  | jmp a => exact OkMaps.commit ((regOperand_okMaps s a).bind fun r => jumpTo_okMaps s r)
  | jeq a => exact OkMaps.commit (jumpIf_okMaps (flagE s.fl) a s)
  | jne a => exact OkMaps.commit (jumpIf_okMaps (!flagE s.fl) a s)
  | push a =>
    exact OkMaps.commit ((regOperand_okMaps s a).bind fun r => (decSp_okMaps s).bind fun t =>
      (readReg_okMaps t r).bind fun v => (writeTop_okMaps t v).bind fun _ => OkMaps.ok withUninitZero _)
  | pop a =>
    exact OkMaps.commit ((regOperand_okMaps s a).bind fun r => (readTop_okMaps s).bind fun v =>
      (incSp_okMaps (s.setReg r v)).bind fun _ => OkMaps.ok withUninitZero _)
  | call a =>
    exact OkMaps.commit ((regOperand_okMaps s a).bind fun r => (decSp_okMaps s).bind fun t =>
      require_okMaps.bind fun _ => (writeTop_okMaps t _).bind fun u => (readReg_okMaps u r).bind fun _ =>
        OkMaps.ok withUninitZero _)
  | ret =>
    exact OkMaps.commit ((readTop_okMaps s).bind fun _ => (incSp_okMaps s).bind fun _ =>
      OkMaps.ok withUninitZero _)

/-- A step that fetches and decodes an instruction executes it. -/
theorem step_eq_exec {s : State} {i : Instr} (hr : s.status = .running) (hc : CellReadable s s.pc)
    (hd : decodeAt (s.setIr (cellValue s s.pc)) (cellValue s s.pc) = .ok i) :
    step s = exec i (s.setIr (cellValue s s.pc)) := by
  simp only [step_running hr, fetchOpcode, memRead_readable hc, hd]

/-- Settles O45: by `step_cases` a step without a fault is an instruction's, and its fetch, its decoding and its
execution each do the same under UNINIT_READ = Zero. -/
theorem uninitFaultRefinesUninitZero : Obligations.UninitFaultRefinesUninitZero := by
  intro s t h ht
  obtain ⟨hr, ⟨f, -, -, rfl⟩ | ⟨hc, ⟨f, -, rfl⟩ | ⟨i, hd, he⟩⟩⟩ := step_cases h
  · exact absurd (takeFault_status f s) ht
  · exact absurd (takeFault_status f _) ht
  · have hd' := decodeAt_okMaps _ _ i hd
    calc step (withUninitZero s)
        _ = exec i (withUninitZero (s.setIr (cellValue s s.pc))) := step_eq_exec hr hc.withUninitZero hd'
        _ = .next (withUninitZero t) := exec_refinesUninitZero i _ t he ht

end Sys2Proof.Machine

/-! SUPPORT. The statements of 10_state.md: what reset leaves, which pieces of state an instruction and a step may change,
the invariant of the machine, the flags after CMP, and that what stands in an unwritten register is never observed. -/

namespace Sys2Proof.Machine

/-! ## What an instruction writes

`Effect` has a clause for each instruction.  Every frame and the invariant ask only which kind of write it is and where pc
goes, so the kinds are read off it once. -/

/-- The writes of a completed instruction other than the one to pc. -/
inductive Writes : Instr → State → State → Prop where
  | halt {s : State} : Writes .hlt s s.halt
  | emit {s : State} (a v : Byte) : Writes (.prn a) s (s.emit v)
  /-- FL takes one of CMP's three values (R27). -/
  | flags {s : State} (a b v : Byte) (hv : v = 0x01 ∨ v = 0x02 ∨ v = 0x04) : Writes (.cmp a b) s (s.setFl v)
  /-- A jump writes nothing but pc. -/
  | jump {i : Instr} {s : State} (hi : setsPc i = true) : Writes i s s
  /-- One register of the destinations: LDI, the ALU's results, and SP for RET. -/
  | reg {i : Instr} {s : State} {r : Reg} (v : Byte) (hr : regByte r ∈ destinations i) : Writes i s (s.setReg r v)
  | pop {s : State} (r : Reg) (v w : Byte) : Writes (.pop (regByte r)) s ((s.setReg r v).setReg SP w)
  /-- PUSH and CALL write SP and the byte at SP - 1. -/
  | store {i : Instr} {s : State} (a v w : Byte) (hi : i = .push a ∨ i = .call a) :
    Writes i s ((s.setReg SP w).setMem (Memory.write s.mem ((regValue s SP).toNat - 1) v))

/-- Where pc may go: to an 8-bit value or to the next instruction. -/
abbrev PcAfter (i : Instr) (s : State) (p : Nat) : Prop := p ≤ 255 ∨ p = s.pc + i.length

theorem PcAfter.byte (i : Instr) (s : State) (v : Byte) : PcAfter i s v.toNat :=
  .inl (Nat.le_of_lt_succ v.isLt)

/-- Each clause of `Effect` is one kind of write, and then a write to pc. -/
theorem Effect.writes {i : Instr} {s t : State} (h : Effect i s t) :
    ∃ u p, t = u.setPc p ∧ Writes i s u ∧ PcAfter i s p := by
  cases i with
  | hlt => exact ⟨_, _, h, .halt, .inr rfl⟩
  | prn a =>
    obtain ⟨v, rfl⟩ := h
    exact ⟨_, _, rfl, .emit a v, .inr rfl⟩
  | cmp a b =>
    obtain ⟨v, hv, rfl⟩ := h
    exact ⟨_, _, rfl, .flags a b v hv, .inr rfl⟩
  | ldi a b | mul a b | add a b | mod a b | and a b | or a b | xor a b | shl a b | shr a b | not a =>
    obtain ⟨r, v, rfl, rfl⟩ := h
    exact ⟨_, _, rfl, .reg v (List.mem_singleton_self _), .inr rfl⟩
  | jmp a =>
    obtain ⟨v, rfl⟩ := h
    exact ⟨_, _, rfl, .jump rfl, .byte _ s v⟩
  | jeq a | jne a =>
    obtain ⟨-, v, rfl⟩ | ⟨-, rfl⟩ := h
    · exact ⟨_, _, rfl, .jump rfl, .byte _ s v⟩
    · exact ⟨_, _, rfl, .jump rfl, .inr rfl⟩
  | push a =>
    obtain ⟨-, v, rfl⟩ := h
    exact ⟨_, _, rfl, .store a v _ (.inl rfl), .inr rfl⟩
  | pop a =>
    obtain ⟨r, v, w, rfl, rfl⟩ := h
    exact ⟨_, _, rfl, .pop r v w, .inr rfl⟩
  | call a =>
    obtain ⟨-, v, w, rfl⟩ := h
    exact ⟨_, _, rfl, .store a v _ (.inr rfl), .byte _ s w⟩
  | ret =>
    obtain ⟨v, w, rfl⟩ := h
    exact ⟨_, _, rfl, .reg w (List.mem_singleton_self _), .byte _ s v⟩

/-- All that an instruction can do: take a fault that records its own pc, or write and then set pc. -/
theorem exec_writes {i : Instr} {s t : State} (h : exec i s = .next t) :
    (∃ f, f.pc = s.pc ∧ t = takeFault f s) ∨ ∃ u p, t = u.setPc p ∧ Writes i s u ∧ PcAfter i s p :=
  (exec_cases h).imp_right Effect.writes

/-! ## Registers -/

/-- Every register whose byte is not listed has in `t` the value and the written mark it has in `s`. -/
def RegsKept (ds : List Byte) (s t : State) : Prop :=
  ∀ r : Reg, regByte r ∉ ds → t.x[r] = s.x[r] ∧ t.xWritten[r] = s.xWritten[r]

theorem RegsKept.refl (ds : List Byte) (s : State) : RegsKept ds s s := fun _ _ => ⟨rfl, rfl⟩

/-- A write to a listed register keeps the others. -/
theorem RegsKept.setReg {ds : List Byte} {s t : State} (h : RegsKept ds s t) {q : Reg} (hq : regByte q ∈ ds) (v : Byte) :
    RegsKept ds s (t.setReg q v) := by
  intro r hr
  have hne : (q : Nat) ≠ (r : Nat) := fun e => hr (Fin.ext e ▸ hq)
  simpa [Vector.getElem_set_ne, hne] using h r hr

theorem Writes.regsKept {i : Instr} {s u : State} (h : Writes i s u) : RegsKept (destinations i) s u := by
  cases h with
  | halt | emit | flags | jump => exact .refl _ s
  | reg v hr => exact (RegsKept.refl _ s).setReg hr v
  | pop r v w => exact ((RegsKept.refl _ s).setReg (by simp [destinations]) v).setReg (by simp [destinations, regByte]) w
  | store a v w hi =>
    have hsp : regByte SP ∈ destinations i := by obtain rfl | rfl := hi <;> exact List.mem_singleton_self _
    exact (RegsKept.refl _ s).setReg hsp w

/-- Settles O36: a fault writes no register, and every write of an instruction keeps the registers outside its
destinations. -/
theorem onlyDestinationRegistersChange : Obligations.OnlyDestinationRegistersChange := by
  intro i s t h
  obtain ⟨f, -, rfl⟩ | ⟨u, p, rfl, hw, -⟩ := exec_writes h
  · exact RegsKept.refl _ s
  · exact hw.regsKept

/-- No register loses its written mark. -/
theorem xWritten_setReg {s : State} {q : Reg} (h : s.xWritten[q] = true) (r : Reg) (v : Byte) :
    (s.setReg r v).xWritten[q] = true := by
  rw [Fin.getElem_fin] at h
  simp [Vector.getElem_set, h]

theorem Writes.xWritten {i : Instr} {s u : State} (h : Writes i s u) {q : Reg} (hq : s.xWritten[q] = true) :
    u.xWritten[q] = true := by
  cases h with
  | halt | emit | flags | jump => exact hq
  | reg v => exact xWritten_setReg hq _ v
  | pop r v w => exact xWritten_setReg (xWritten_setReg hq r v) SP w
  | store a v w => exact xWritten_setReg hq SP w

/-! ## Memory -/

/-- Memory is as before, or PUSH or CALL has stored a byte at SP - 1. -/
theorem Writes.mem {i : Instr} {s u : State} (h : Writes i s u) :
    u.mem = s.mem ∨
      ∃ a v, (i = .push a ∨ i = .call a) ∧ u.mem = Memory.write s.mem ((regValue s SP).toNat - 1) v := by
  cases h with
  | halt | emit | flags | jump | reg | pop => exact .inl rfl
  | store a v w hi => exact .inr ⟨a, v, hi, rfl⟩

/-- Settles O37: the one store of PUSH and CALL is at SP - 1, and a write leaves every other cell. -/
theorem onlyPushAndCallWriteMemory : Obligations.OnlyPushAndCallWriteMemory := by
  intro i s t h addr haddr
  obtain ⟨f, -, rfl⟩ | ⟨u, p, rfl, hw, -⟩ := exec_writes h
  · rfl
  · rw [State.setPc_mem]
    obtain hm | ⟨a, v, hi, hm⟩ := hw.mem
    · rw [hm]
    · have hne : addr ≠ (regValue s SP).toNat - 1 :=
        haddr.resolve_left fun hno => hi.elim (hno.1 a) (hno.2 a)
      rw [hm, Memory.lookup_write_other _ hne.symm]

theorem Writes.memWf {i : Instr} {s u : State} (h : Writes i s u) (hs : Memory.wf s.mem = true) :
    Memory.wf u.mem = true := by
  obtain hm | ⟨a, v, -, hm⟩ := h.mem
  · rw [hm]; exact hs
  · have := (regValue s SP).isLt
    rw [hm]; exact Memory.wf_write _ _ v (by omega) hs

/-! ## FL, the output stream, status, and what no instruction writes -/

theorem Writes.fl {i : Instr} {s u : State} (h : Writes i s u) :
    u.fl = s.fl ∨ ∃ a b, i = .cmp a b ∧ (u.fl = 0x01 ∨ u.fl = 0x02 ∨ u.fl = 0x04) := by
  cases h with
  | halt | emit | jump | reg | pop | store => exact .inl rfl
  | flags a b v hv => exact .inr ⟨a, b, rfl, hv⟩

theorem Writes.out {i : Instr} {s u : State} (h : Writes i s u) :
    u.out = s.out ∨ ∃ a v, i = .prn a ∧ u.out = s.out ++ [v] := by
  cases h with
  | halt | flags | jump | reg | pop | store => exact .inl rfl
  | emit a v => exact .inr ⟨a, v, rfl, rfl⟩

theorem Writes.status {i : Instr} {s u : State} (h : Writes i s u) :
    u.status = if i = .hlt then .halted else s.status := by
  cases h with
  | halt | emit | flags | pop => rfl
  | jump hi => rw [if_neg (by rintro rfl; cases hi)]
  | reg v hr => rw [if_neg (by rintro rfl; cases hr)]; rfl
  | store a v w hi => rw [if_neg (by rintro rfl; simp at hi)]; rfl

theorem Writes.frame {i : Instr} {s u : State} (h : Writes i s u) :
    u.fault = s.fault ∧ u.ir = s.ir ∧ u.config = s.config := by
  cases h <;> exact ⟨rfl, rfl, rfl⟩

/-- Settles O38: a fault writes status and the fault record only; the other writes are by `Writes`, piece by piece. -/
theorem onlyTheOwnerChangesOtherState : Obligations.OnlyTheOwnerChangesOtherState := by
  intro i s t h
  obtain ⟨f, hf, rfl⟩ | ⟨u, p, rfl, hw, -⟩ := exec_writes h
  · exact ⟨fun _ => rfl, fun _ => rfl, .inl ⟨rfl, f, rfl, hf⟩, rfl, rfl⟩
  · obtain ⟨hfault, hir, hconfig⟩ := hw.frame
    refine ⟨fun hcmp => ?_, fun hprn => ?_, .inr ⟨hfault, hw.status⟩, hir, hconfig⟩
    · exact hw.fl.resolve_right fun ⟨a, b, hi, _⟩ => hcmp a b hi
    · exact hw.out.resolve_right fun ⟨a, v, hi, _⟩ => hprn a hi

/-- Settles O43: only an instruction of the step writes the output, at most once, and nothing writes the
configuration. -/
theorem outputOnlyGrowsAndConfigurationIsFixed : Obligations.OutputOnlyGrowsAndConfigurationIsFixed := by
  intro s t h
  obtain ⟨-, ⟨f, -, -, rfl⟩ | ⟨-, ⟨f, -, rfl⟩ | ⟨i, -, he⟩⟩⟩ := step_cases h
  · exact ⟨.inl rfl, rfl⟩
  · exact ⟨.inl rfl, rfl⟩
  · obtain ⟨f, -, rfl⟩ | ⟨u, p, rfl, hw, -⟩ := exec_writes he
    · exact ⟨.inl rfl, rfl⟩
    · exact ⟨hw.out.imp_right fun ⟨_, v, _, hv⟩ => ⟨v, hv⟩, hw.frame.2.2⟩

/-! ## Decoding -/

/-- What the operand fetch of a table entry gives: an instruction under that opcode byte, all of it inside memory. -/
theorem fetchOperands_eq_ok {c : Config} {op : Byte} {sh : Shape} {s : State} {i : Instr} (hs : ShapeOf c op sh)
    (hpc : s.pc ≤ 255) (h : fetchOperands s sh = .ok i) : i.opcode = op ∧ s.pc + i.length ≤ 256 := by
  cases sh with
  | n j =>
    cases h
    obtain ⟨henc, hlen, -⟩ := hs
    exact ⟨by simp [Instr.opcode, henc], by omega⟩
  | r f =>
    simp only [fetchOperands, Exec.bind_eq_ok] at h
    obtain ⟨a, ha, hi⟩ := h
    cases hi
    obtain ⟨henc, hlen, -⟩ := hs a
    have hle := (memRead_eq_ok ha).1.1
    exact ⟨by simp [Instr.opcode, henc], by omega⟩
  | rr f | ri f =>
    simp only [fetchOperands, Exec.bind_eq_ok] at h
    obtain ⟨a, -, b, hb, hi⟩ := h
    cases hi
    obtain ⟨henc, hlen, -⟩ := hs a b
    have hle := (memRead_eq_ok hb).1.1
    exact ⟨by simp [Instr.opcode, henc], by omega⟩

theorem decodeAt_eq_ok {s : State} {op : Byte} {i : Instr} (hpc : s.pc ≤ 255) (h : decodeAt s op = .ok i) :
    i.opcode = op ∧ s.pc + i.length ≤ 256 := by
  unfold decodeAt at h
  cases hd : dispatch s.config op with
  | none => rw [hd] at h; cases h
  | some sh => rw [hd] at h; exact fetchOperands_eq_ok (dispatch_shape hd) hpc h

theorem decodeAt_hlt (s : State) : decodeAt s 0x01 = .ok .hlt := by
  rw [decodeAt, dispatch_hlt]
  rfl

/-- Settles O42: a step ends HALTED only by executing HLT, whose opcode byte is 0x01, and that byte decodes to HLT. -/
theorem onlyHltHaltsTheEngine : Obligations.OnlyHltHaltsTheEngine := by
  intro s t h
  obtain ⟨hr, hcases⟩ := step_cases h
  constructor
  · intro ht
    obtain ⟨f, -, -, rfl⟩ | ⟨hc, ⟨f, -, rfl⟩ | ⟨i, hd, he⟩⟩ := hcases
    · cases ht
    · cases ht
    · obtain ⟨f, -, rfl⟩ | ⟨u, p, rfl, hw, -⟩ := exec_writes he
      · cases ht
      · have hi : i = .hlt := by
          by_contra hne
          have : s.status = .halted := by simpa [hw.status, hne] using ht
          simp [hr] at this
        subst hi
        exact ⟨hc, (decodeAt_eq_ok hc.1 hd).1.symm⟩
  · rintro ⟨hc, hv⟩
    have hd : decodeAt (s.setIr (cellValue s s.pc)) (cellValue s s.pc) = .ok .hlt := by rw [hv]; exact decodeAt_hlt _
    rw [step_eq_exec hr hc hd] at h
    cases h
    rfl

/-! ## The invariant -/

theorem MachineInv.fault_eq_none {s : State} (h : MachineInv s) (hr : s.status = .running) : s.fault = none := by
  simpa [hr] using h.record

/-- A fault that records the pc keeps the invariant. -/
theorem MachineInv.takeFault {s : State} (h : MachineInv s) {f : FaultRecord} (hf : f.pc = s.pc) :
    MachineInv (takeFault f s) where
  memory := h.memory
  pcRange := h.pcRange
  flags := h.flags
  spWritten := h.spWritten
  record := by simp
  recordPc := by rintro g ⟨⟩; exact hf

theorem MachineInv.setIr {s : State} (h : MachineInv s) (v : Byte) : MachineInv (s.setIr v) :=
  ⟨h.memory, h.pcRange, h.flags, h.spWritten, h.record, h.recordPc⟩

/-- The writes of an instruction, and a pc in range, keep the invariant of a RUNNING state. -/
theorem Writes.machineInv {i : Instr} {s u : State} (hw : Writes i s u) (h : MachineInv s) (hr : s.status = .running)
    {p : Nat} (hp : p ≤ 256) : MachineInv (u.setPc p) where
  memory := hw.memWf h.memory
  pcRange := hp
  flags := by
    obtain hfl | ⟨_, _, _, hfl⟩ := hw.fl
    · rw [State.setPc_fl, hfl]; exact h.flags
    · exact .inr hfl
  spWritten := hw.xWritten h.spWritten
  record := by
    have hfault := hw.frame.1.trans (h.fault_eq_none hr)
    by_cases hi : i = .hlt <;> simp [hfault, hw.status, hi, hr]
  recordPc := by
    intro f hf
    rw [State.setPc_fault, hw.frame.1, h.fault_eq_none hr] at hf
    cases hf

theorem exec_keepsMachineInv {i : Instr} {s t : State} (h : MachineInv s) (hr : s.status = .running)
    (hlen : s.pc + i.length ≤ 256) (he : exec i s = .next t) : MachineInv t := by
  obtain ⟨f, hf, rfl⟩ | ⟨u, p, rfl, hw, hp⟩ := exec_writes he
  · exact h.takeFault hf
  · exact hw.machineInv h hr (by omega)

/-- Settles O14: a fault of any phase records the pc and keeps the rest, and an instruction that could be fetched whole
leaves pc at most 256. -/
theorem stepKeepsTheMachineWellFormed : Obligations.StepKeepsTheMachineWellFormed := by
  intro s t h hstep
  obtain ⟨hr, ⟨f, hf, -, rfl⟩ | ⟨hc, ⟨f, hf, rfl⟩ | ⟨i, hd, he⟩⟩⟩ := step_cases hstep
  · exact h.takeFault hf
  · exact (h.setIr _).takeFault hf
  · exact exec_keepsMachineInv (h.setIr (cellValue s s.pc)) hr (decodeAt_eq_ok hc.1 hd).2 he

/-! ## Reset -/

theorem resetWith_xWritten (c : Config) {r : Reg} (h : r ≠ 7) : (State.resetWith c).xWritten[r] = false := by
  have hne : (7 : Nat) ≠ (r : Nat) := fun e => h (Fin.ext e.symm)
  simp [State.resetWith, Vector.getElem_set_ne, hne]

/-- Settles O1: every field is written out in `State.resetWith`. -/
theorem resetHasTheSpecifiedValues : Obligations.ResetHasTheSpecifiedValues :=
  ⟨rfl, fun c => ⟨rfl, rfl, rfl, fun _ => resetWith_xWritten c, rfl, rfl, rfl, Memory.lookup_nil, rfl, rfl⟩⟩

/-- Settles O15: memory is empty, SP is written, and no fault is recorded. -/
theorem resetIsWellFormed : Obligations.ResetIsWellFormed := fun _ =>
  { memory := Memory.wf_nil
    pcRange := Nat.zero_le _
    flags := .inl rfl
    spWritten := rfl
    record := ⟨nofun, nofun⟩
    recordPc := nofun }

/-! ## CMP -/

theorem flValue_of_lt {x y : Byte} (h : x < y) : flValue x y = BitVec.twoPow 8 2 := by
  rw [flValue, if_pos (BitVec.lt_def.1 h)]
  rfl

theorem flValue_of_gt {x y : Byte} (h : y < x) : flValue x y = BitVec.twoPow 8 1 := by
  have hlt := BitVec.lt_def.1 h
  rw [flValue, if_neg (Nat.lt_asymm hlt), if_pos hlt]
  rfl

theorem flValue_self (x : Byte) : flValue x x = BitVec.twoPow 8 0 := by
  rw [flValue, if_neg (Nat.lt_irrefl _), if_neg (Nat.lt_irrefl _)]
  rfl

/-- CMP of two readable registers. -/
theorem exec_cmp_readable {s : State} {a b : Reg} (ha : Readable s a) (hb : Readable s b) :
    exec (.cmp (regByte a) (regByte b)) s =
      .next ((s.setFl (flValue (regValue s a) (regValue s b))).setPc (s.pc + 3)) := by
  simp [exec, execCmp, aluOperands_readable ha hb, alu]

/-- Settles O26: FL is the power of two whose bit says how the values compare. -/
theorem cmpSetsExactlyOneFlagBit : Obligations.CmpSetsExactlyOneFlagBit := by
  intro s a b ha hb
  refine ⟨_, exec_cmp_readable ha hb, ?_⟩
  rw [State.setPc_fl, State.setFl_fl]
  obtain h | h | h := Std.lt_trichotomy (regValue s a) (regValue s b)
  · simp [flValue_of_lt h, h, BitVec.ne_of_lt h, BitVec.le_of_lt h, BitVec.getLsbD_twoPow]
  · simp [h, flValue_self, BitVec.getLsbD_twoPow]
  · simp [flValue_of_gt h, h, (BitVec.ne_of_lt h).symm, BitVec.le_of_lt h, BitVec.getLsbD_twoPow]

end Sys2Proof.Machine

/-! SUPPORT. A step commutes with forgetting what stands in the unwritten registers (10_state.md R33). -/

namespace Sys2Proof.Machine

/-! ## Forgetting the unwritten registers

`forgetUnwritten` changes `x` only, so what reads another piece of state is unchanged by definition, and so is what a
register read gives.  Each operation is stated as an equation: its value is the same, or the state it answers is the
forgetful image. -/

theorem regValue_forgetUnwritten (s : State) (r : Reg) : regValue (forgetUnwritten s) r = regValue s r := by
  by_cases h : s.xWritten[r] = true <;> simp_all [regValue, forgetUnwritten]

@[simp] theorem readReg_forgetUnwritten (s : State) (r : Reg) : readReg (forgetUnwritten s) r = readReg s r := by
  obtain ⟨h, e⟩ | ⟨h, e⟩ := readReg_cases s r
  · have h' : Readable (forgetUnwritten s) r := h
    rw [e, readReg_readable h', regValue_forgetUnwritten]
  · have h' : ¬ Readable (forgetUnwritten s) r := h
    rw [e, readReg_unreadable h']
    rfl

@[simp] theorem regOperand_forgetUnwritten (s : State) (v : Byte) :
    regOperand (forgetUnwritten s) v = regOperand s v := rfl

@[simp] theorem memRead_forgetUnwritten (s : State) (a : Nat) : memRead (forgetUnwritten s) a = memRead s a := rfl

@[simp] theorem forgetUnwritten_pc (s : State) : (forgetUnwritten s).pc = s.pc := rfl

@[simp] theorem forgetUnwritten_fl (s : State) : (forgetUnwritten s).fl = s.fl := rfl

/-! Updates commute with it. -/

@[simp] theorem forgetUnwritten_setPc (s : State) (v : Nat) :
    (forgetUnwritten s).setPc v = forgetUnwritten (s.setPc v) := rfl

@[simp] theorem forgetUnwritten_setFl (s : State) (v : Byte) :
    (forgetUnwritten s).setFl v = forgetUnwritten (s.setFl v) := rfl

@[simp] theorem forgetUnwritten_setIr (s : State) (v : Byte) :
    (forgetUnwritten s).setIr v = forgetUnwritten (s.setIr v) := rfl

@[simp] theorem forgetUnwritten_emit (s : State) (v : Byte) :
    (forgetUnwritten s).emit v = forgetUnwritten (s.emit v) := rfl

@[simp] theorem forgetUnwritten_halt (s : State) : (forgetUnwritten s).halt = forgetUnwritten s.halt := rfl

/-- The written register holds the value on both sides; of every other one the same is forgotten. -/
@[simp] theorem forgetUnwritten_setReg (s : State) (r : Reg) (v : Byte) :
    (forgetUnwritten s).setReg r v = forgetUnwritten (s.setReg r v) := by
  have hx : (Vector.ofFn fun q => regValue s q).set r v = Vector.ofFn fun q => regValue (s.setReg r v) q := by
    ext k hk
    by_cases hrk : r = ⟨k, hk⟩
    · subst hrk; simp
    · have hne : (r : Nat) ≠ k := fun e => hrk (Fin.ext e)
      simp [Vector.getElem_set_ne, hne, regValue_setReg_other s hrk]
  simp only [State.setReg, forgetUnwritten] at hx ⊢
  rw [hx]

/-! Operations that answer a state. -/

@[simp] theorem memWrite_forgetUnwritten (s : State) (a : Nat) (v : Byte) :
    memWrite (forgetUnwritten s) a v = forgetUnwritten <$> memWrite s a v := by
  by_cases h : 255 < a
  · rw [memWrite_outside _ h, memWrite_outside s h]; rfl
  · rw [memWrite_ok _ (by omega), memWrite_ok s (by omega)]; rfl

@[simp] theorem Exec.map_ok {α β : Type} (g : α → β) (a : α) : g <$> (Except.ok a : Exec α) = Except.ok (g a) := rfl

@[simp] theorem decSp_forgetUnwritten (s : State) : decSp (forgetUnwritten s) = forgetUnwritten <$> decSp s := by
  simp [decSp]

@[simp] theorem incSp_forgetUnwritten (s : State) : incSp (forgetUnwritten s) = forgetUnwritten <$> incSp s := by
  simp [incSp]

@[simp] theorem readTop_forgetUnwritten (s : State) : readTop (forgetUnwritten s) = readTop s := by
  simp [readTop]

@[simp] theorem writeTop_forgetUnwritten (s : State) (v : Byte) :
    writeTop (forgetUnwritten s) v = forgetUnwritten <$> writeTop s v := by
  simp [writeTop]

@[simp] theorem aluOperands_forgetUnwritten (op : AluOp) (a b : Byte) (s : State) :
    aluOperands op a b (forgetUnwritten s) = aluOperands op a b s := by
  simp [aluOperands]

@[simp] theorem aluToReg_forgetUnwritten (op : AluOp) (a b : Byte) (s : State) :
    aluToReg op a b (forgetUnwritten s) = forgetUnwritten <$> aluToReg op a b s := by
  simp [aluToReg]

@[simp] theorem jumpTo_forgetUnwritten (s : State) (r : Reg) :
    jumpTo (forgetUnwritten s) r = forgetUnwritten <$> jumpTo s r := by
  simp [jumpTo]

@[simp] theorem jumpIf_forgetUnwritten (taken : Bool) (a : Byte) (s : State) :
    jumpIf taken a (forgetUnwritten s) = forgetUnwritten <$> jumpIf taken a s := by
  cases taken <;> simp [jumpIf]

@[simp] theorem decodeAt_forgetUnwritten (s : State) (op : Byte) : decodeAt (forgetUnwritten s) op = decodeAt s op := rfl

/-! ## Answers -/

/-- The answer with the unwritten registers of its next state forgotten. -/
def forgetAnswer : Answer → Answer
  | .next t => .next (forgetUnwritten t)
  | .fault f => .fault f
  | .refused r => .refused r

/-- A commit forgets in the working copy where its computation completes, and in the state before where it faults. -/
theorem commit_forgetUnwritten {s : State} {r r' : Exec State} (h : r' = forgetUnwritten <$> r) :
    commit (forgetUnwritten s) r' = forgetAnswer (commit s r) := by
  subst h
  cases r <;> rfl

theorem exec_forgetUnwritten (i : Instr) (s : State) : exec i (forgetUnwritten s) = forgetAnswer (exec i s) := by
  cases i with
  | hlt => rfl
  | mul a b | add a b | mod a b | and a b | or a b | xor a b | shl a b | shr a b =>
    exact commit_forgetUnwritten (aluToReg_forgetUnwritten _ a b s)
  | jeq a | jne a => exact commit_forgetUnwritten (jumpIf_forgetUnwritten _ a s)
  | ldi | prn | cmp | not | jmp | push | pop | call | ret => exact commit_forgetUnwritten (by simp)

theorem step_forgetUnwritten (s : State) : step (forgetUnwritten s) = forgetAnswer (step s) := by
  cases hs : s.status with
  | halted => rw [step_halted hs, step_halted (s := forgetUnwritten s) hs]; rfl
  | faulted => rw [step_faulted hs, step_faulted (s := forgetUnwritten s) hs]; rfl
  | running =>
    rw [step_running hs, step_running (s := forgetUnwritten s) hs]
    simp only [fetchOpcode, forgetUnwritten_pc, memRead_forgetUnwritten, forgetUnwritten_setIr,
      decodeAt_forgetUnwritten, exec_forgetUnwritten]
    cases memRead s s.pc with
    | error f => rfl
    | ok op =>
      dsimp only
      cases decodeAt (s.setIr op) op <;> rfl

/-- Settles O44: both clauses are `step_forgetUnwritten`. -/
theorem unwrittenRegistersAreNeverObserved : Obligations.UnwrittenRegistersAreNeverObserved := by
  intro s
  rw [step_forgetUnwritten]
  exact ⟨fun t h => by rw [h]; rfl, fun f h => by rw [h]; rfl⟩

end Sys2Proof.Machine

/-! SUPPORT. The statements of 20_memory.md: the two access primitives, and a fetch sees what PUSH and CALL store. -/

namespace Sys2Proof.Machine

/-! ## The access primitives -/

/-- A written cell is readable in either configuration. -/
theorem memRead_written {s : State} {a : Nat} {v : Byte} (ha : a ≤ 255) (h : Memory.lookup s.mem a = some v) :
    memRead s a = .ok v := by
  rw [memRead_readable ⟨ha, .inl (by simp [h])⟩, cellValue, h, Option.getD_some]

/-- A memory read depends on the cell it reads, on the pc it would record and on UNINIT_READ. -/
theorem memRead_congr {s t : State} {a : Nat} (hm : Memory.lookup t.mem a = Memory.lookup s.mem a) (hp : t.pc = s.pc)
    (hc : t.config = s.config) : memRead t a = memRead s a := by
  unfold memRead
  rw [hm, hp, hc]

/-- Settles O40: `memRead_written`, and an unwritten cell is readable under Zero only. -/
theorem memReadFollowsItsRule : Obligations.MemReadFollowsItsRule := by
  refine fun s addr => ⟨memRead_outside s, fun ha _ => memRead_written ha, fun ha hl hu => ?_, fun ha hl hu => ?_⟩
  · have hno : ¬ CellReadable s addr := by simp [CellReadable, hl, hu]
    exact memRead_unreadable ha hno
  · rw [memRead_readable ⟨ha, .inr hu⟩, cellValue, hl, Option.getD_none]

/-- Settles O41: in range the write is one `Memory.write`, whose laws say what every later read gives. -/
theorem memWriteIsReadBack : Obligations.MemWriteIsReadBack := by
  refine fun s addr v => ⟨fun h => memWrite_outside s h v, fun ha => ⟨_, memWrite_ok s ha v, rfl, ?_, ?_, ?_, ?_⟩⟩
  · exact Memory.lookup_write_same s.mem addr v
  · exact memRead_written ha (Memory.lookup_write_same s.mem addr v)
  · exact fun a hne => memRead_congr (Memory.lookup_write_other s.mem hne.symm v) rfl rfl
  · exact Memory.wf_write s.mem addr v (by omega)

/-! ## PUSH and CALL that complete -/

/-- The value of a register after a register write. -/
theorem regValue_setReg (s : State) (r q : Reg) (v : Byte) :
    regValue (s.setReg r v) q = if q = r then v else regValue s q := by
  split
  next h => rw [h, regValue_setReg_same]
  next h => rw [regValue_setReg_other s (Ne.symm h)]

/-- The working copy after the decrement of SP by PUSH and CALL. -/
def State.spDown (s : State) : State := s.setReg SP (regValue s SP - 1)

/-- The working copy after PUSH or CALL has stored a byte: SP is one lower and addresses that byte. -/
def State.stackStore (s : State) (v : Byte) : State :=
  s.spDown.setMem (Memory.write s.mem ((regValue s SP).toNat - 1) v)

theorem readable_spDown {s : State} {a : Reg} (h : a = SP ∨ Readable s a) : Readable s.spDown a :=
  (readable_setReg s SP a _).2 h

/-- What a register read gives does not depend on memory. -/
@[simp] theorem readReg_stackStore (s : State) (v : Byte) (r : Reg) :
    readReg (s.stackStore v) r = readReg s.spDown r := rfl

theorem decSp_eq_spDown {s : State} (hsp : Readable s SP) (h1 : 1 ≤ (regValue s SP).toNat) :
    decSp s = .ok s.spDown := by
  rw [decSp_eq hsp, if_pos h1, byte_pred _ h1, State.spDown]

theorem writeTop_spDown {s : State} (h1 : 1 ≤ (regValue s SP).toNat) (v : Byte) :
    writeTop s.spDown v = .ok (s.stackStore v) := by
  rw [State.stackStore, State.spDown, writeTop_eq (readable_sp_setReg s _), regValue_setReg_same, byte_pred_toNat _ h1,
    State.setReg_mem]

/-- R151: the pushed register is read after the decrement, so R7 pushes the lower SP. -/
theorem exec_push_readable {s : State} {a : Reg} (hsp : Readable s SP) (h1 : 1 ≤ (regValue s SP).toNat)
    (ha : a = SP ∨ Readable s a) :
    exec (.push (regByte a)) s = .next ((s.stackStore (regValue s.spDown a)).setPc (s.pc + 2)) := by
  simp [exec, execPush, decSp_eq_spDown hsp h1, readReg_readable (readable_spDown ha), writeTop_spDown h1]

/-- R153: the target is read after the return address is stored, so R7 calls the lower SP. -/
theorem exec_call_readable {s : State} {a : Reg} (hsp : Readable s SP) (h1 : 1 ≤ (regValue s SP).toNat)
    (hpc : s.pc + 2 ≤ 255) (ha : a = SP ∨ Readable s a) :
    exec (.call (regByte a)) s =
      .next ((s.stackStore (BitVec.ofNat 8 (s.pc + 2))).setPc (regValue s.spDown a).toNat) := by
  have hpc' : s.pc ≤ 253 := by omega
  simp [exec, execCall, decSp_eq_spDown hsp h1, hpc', writeTop_spDown h1,
    readReg_readable (readable_spDown ha)]

/-! ## A fetch sees the stored byte -/

/-- The stored byte is read at SP - 1, wherever pc goes. -/
theorem memRead_stackStore (s : State) (v : Byte) (p : Nat) :
    memRead ((s.stackStore v).setPc p) ((regValue s SP).toNat - 1) = .ok v := by
  have := (regValue s SP).isLt
  exact memRead_written (by omega) (Memory.lookup_write_same s.mem _ v)

/-- The next fetch is the memory read at the new pc. -/
theorem fetchOpcode_stackStore (s : State) (v : Byte) {p : Nat} (hp : p = (regValue s SP).toNat - 1) :
    fetchOpcode ((s.stackStore v).setPc p) = .ok v := by
  subst hp
  exact memRead_stackStore s v _

/-- Settles O35: PUSH and CALL that complete end in a `stackStore`, and a fetch is a memory read. -/
theorem stackStoreIsFetchedNext : Obligations.StackStoreIsFetchedNext := by
  intro s a hw h1 ha
  have hval : regValue s.spDown a = if a = SP then regValue s SP - 1 else regValue s a := regValue_setReg s SP a _
  constructor
  · refine ⟨_, exec_push_readable (.inl hw) h1 ha, ?_⟩
    rw [← hval]
    exact ⟨memRead_stackStore s _ _, fetchOpcode_stackStore s _⟩
  · intro hpc
    refine ⟨_, exec_call_readable (.inl hw) h1 hpc ha, memRead_stackStore s _ _, fun htarget => ?_⟩
    have htop : (regValue s.spDown a).toNat = (regValue s SP).toNat - 1 := by
      rw [hval]
      split
      next => exact byte_pred_toNat _ h1
      next hne => exact htarget.resolve_left hne
    exact fetchOpcode_stackStore s _ htop

end Sys2Proof.Machine

/-! SUPPORT. The statements of 30_encoding.md: decoding against encoding, the illegal opcode bytes, and the assembler
text. -/

namespace Sys2Proof.Machine

/-! ## Decoding against encoding -/

/-- R60..R67, from bytes: the table's entry fixes how many operand bytes are taken, and `ShapeOf` what they encode. -/
theorem decode_eq_ok {c : Config} {bs rest : List Byte} {i : Instr} (h : decode c bs = .ok (i, rest)) :
    i.present c = true ∧ bs = encode i ++ rest := by
  cases bs with
  | nil => cases h
  | cons op bs =>
    cases hd : dispatch c op with
    | none => simp [decode, hd] at h
    | some sh =>
      have hs := dispatch_shape hd
      cases sh with
      | n j =>
        simp only [decode, hd] at h
        cases h
        obtain ⟨henc, -, hp⟩ := hs
        exact ⟨hp, by simp [henc]⟩
      | r f =>
        simp only [decode, hd] at h
        split at h <;> cases h
        obtain ⟨henc, -, hp⟩ := hs _
        exact ⟨hp, by simp [henc]⟩
      | rr f | ri f =>
        simp only [decode, hd] at h
        split at h <;> cases h
        obtain ⟨henc, -, hp⟩ := hs _ _
        exact ⟨hp, by simp [henc]⟩

/-- R60..R67, from an instruction: its opcode byte selects the entry that makes it from its operand bytes. -/
theorem decode_encode {c : Config} {i : Instr} (h : i.present c = true) (rest : List Byte) :
    decode c (encode i ++ rest) = .ok (i, rest) := by
  obtain ⟨sh, hd, hm⟩ := dispatch_present h
  cases sh with
  | n j =>
    obtain ⟨rfl, henc⟩ := hm
    simp [henc, decode, hd]
  | r f =>
    obtain ⟨a, hf, henc⟩ := hm
    simp [henc, decode, hd, hf]
  | rr f | ri f =>
    obtain ⟨a, b, hf, henc⟩ := hm
    simp [henc, decode, hd, hf]

/-- Settles O4: `decode_eq_ok` and `decode_encode`. -/
theorem decodeAndEncodeAgree : Obligations.DecodeAndEncodeAgree := by
  intro c bs rest i
  constructor
  · exact decode_eq_ok
  · rintro ⟨hp, rfl⟩
    exact decode_encode hp rest

/-- Settles O5: the decoder is evaluated on each word. -/
theorem opcodeMapWordsDecode : Obligations.OpcodeMapWordsDecode := ⟨rfl, rfl, rfl, rfl, rfl, rfl, rfl⟩

/-! ## Illegal opcodes -/

theorem dispatch_eq_none_iff (c : Config) (op : Byte) :
    dispatch c op = none ↔ ∀ row ∈ dispatchTable c, row.1 ≠ op := by
  simp [dispatch]

theorem decode_cons_eq_unknownOpcode_iff (c : Config) (op : Byte) (rest : List Byte) :
    decode c (op :: rest) = .error (.unknownOpcode op) ↔ dispatch c op = none := by
  cases hd : dispatch c op with
  | none => simp [decode, hd]
  | some sh =>
    cases sh with
    | n i => simp [decode, hd]
    | r f | rr f | ri f =>
      simp only [decode, hd]
      split <;> simp

/-- R65: the ranges written out there are the complement of the opcode map. -/
theorem illegalOpcode_iff (c : Config) (op : Byte) :
    illegalOpcode c op = true ↔ ∀ row ∈ dispatchTable c, row.1 ≠ op := by
  have hop := op.isLt
  rcases c with ⟨_ | _, _⟩
  all_goals
    simp [dispatchTable, coreTable, shiftTable, illegalOpcode, illegalRanges, BitVec.toNat_eq]
    omega

theorem nodup_opcodes (c : Config) : ((dispatchTable c).map fun row => row.1.toNat).Nodup := by
  rcases c with ⟨_ | _, _⟩ <;> simp [dispatchTable, coreTable, shiftTable]

/-- The legal bytes are the opcode bytes of the table's rows, each of one row. -/
theorem filter_legal_perm (c : Config) :
    ((List.range 256).filter fun n => ¬ illegalOpcode c (BitVec.ofNat 8 n)).Perm
      ((dispatchTable c).map fun row => row.1.toNat) := by
  rw [List.perm_ext_iff_of_nodup (List.nodup_range.filter _) (nodup_opcodes c)]
  intro n
  simp only [List.mem_filter, List.mem_range, List.mem_map, illegalOpcode_iff, decide_eq_true_eq, not_forall, not_not,
    exists_prop]
  constructor
  · rintro ⟨hn, row, hrow, he⟩
    exact ⟨row, hrow, by simp [he, Nat.mod_eq_of_lt hn]⟩
  · rintro ⟨row, hrow, rfl⟩
    exact ⟨row.1.isLt, row, hrow, by simp⟩

/-- R65: the illegal bytes and the rows of the opcode map are 256 together. -/
theorem length_filter_illegalOpcode (c : Config) :
    ((List.range 256).filter fun n => illegalOpcode c (BitVec.ofNat 8 n)).length + (dispatchTable c).length = 256 := by
  have hlegal := (filter_legal_perm c).length_eq
  rw [List.length_map] at hlegal
  have hsplit := List.length_eq_countP_add_countP (fun n => illegalOpcode c (BitVec.ofNat 8 n)) (l := List.range 256)
  rw [List.length_range, List.countP_eq_length_filter, List.countP_eq_length_filter, hlegal] at hsplit
  exact hsplit.symm

/-- R65's counts: 236 bytes beside R63's 20 rows, and 238 beside the 18 that stand without the shifts. -/
theorem length_dispatchTable (c : Config) :
    (if c.shiftsEnabled then 236 else 238) + (dispatchTable c).length = 256 := by
  rcases c with ⟨_ | _, _⟩ <;> rfl

theorem step_decodeError {s : State} (hr : s.status = .running) (hc : CellReadable s s.pc)
    (hd : dispatch s.config (cellValue s s.pc) = none) :
    step s = .next (takeFault (.decodeError (cellValue s s.pc) s.pc) (s.setIr (cellValue s s.pc))) := by
  simp [step_running hr, fetchOpcode, memRead_readable hc, decodeAt, hd]

/-- Settles O6: both the ranges of R65 and the bytes the dispatcher refuses are the complement of the opcode map. -/
theorem illegalOpcodesRaiseDecodeError : Obligations.IllegalOpcodesRaiseDecodeError := by
  refine ⟨fun c op rest => ?_, fun c => ?_, fun s hr hc hill => ?_⟩
  · rw [decode_cons_eq_unknownOpcode_iff, dispatch_eq_none_iff, illegalOpcode_iff]
  · exact Nat.add_right_cancel ((length_filter_illegalOpcode c).trans (length_dispatchTable c).symm)
  · have hd := (dispatch_eq_none_iff _ _).2 ((illegalOpcode_iff _ _).1 hill)
    exact ⟨_, step_decodeError hr hc hd⟩

end Sys2Proof.Machine

/-! SUPPORT. The assembler text of 30_encoding.md R70: a printed line is taken apart into its mnemonic and its
operands, and each of them is read back. -/

namespace Sys2Proof.Machine

/-- A mnemonic or an operand as it is printed: letters and digits, and at least one of them. -/
structure Token (cs : List Char) : Prop where
  ne_nil : cs ≠ []
  isAlphanum : ∀ c ∈ cs, c.isAlphanum = true

theorem Token.not_isBlank {cs : List Char} (h : Token cs) : ∀ c ∈ cs, isBlank c = false := by
  intro c hc
  have ha := h.isAlphanum c hc
  by_contra hb
  simp only [isBlank, Bool.not_eq_false, Bool.or_eq_true, beq_iff_eq] at hb
  obtain rfl | rfl := hb <;> simp at ha

theorem Token.ne_comma {cs : List Char} (h : Token cs) : ∀ c ∈ cs, c ≠ ',' := by
  rintro c hc rfl
  have ha := h.isAlphanum _ hc
  simp at ha

/-! ## White space at the ends -/

theorem trim_eq_self {cs : List Char} (hh : ∀ c ∈ cs.head?, isBlank c = false)
    (hl : ∀ c ∈ cs.getLast?, isBlank c = false) : trim cs = cs := by
  have hleft : cs.dropWhile isBlank = cs := by
    cases cs with
    | nil => rfl
    | cons c cs => simp [hh c rfl]
  have hright : cs.rdropWhile isBlank = cs :=
    List.rdropWhile_eq_self_iff.2 fun hne => by simp [hl _ (List.getLast?_eq_getLast_of_ne_nil hne)]
  calc trim cs
      _ = cs.rdropWhile isBlank := by rw [trim, hleft, List.rdropWhile]
      _ = cs := hright

theorem trim_token {x : List Char} (hx : Token x) : trim x = x :=
  trim_eq_self (fun c hc => hx.not_isBlank c (List.mem_of_head? hc))
    (fun c hc => hx.not_isBlank c (List.mem_of_getLast? hc))

theorem trim_token_append_token {x y : List Char} (hx : Token x) (hy : Token y) (m : List Char) :
    trim (x ++ (m ++ y)) = x ++ (m ++ y) := by
  refine trim_eq_self (fun c hc => hx.not_isBlank c ?_) (fun c hc => hy.not_isBlank c ?_)
  · rw [List.head?_append_of_ne_nil _ hx.ne_nil] at hc
    exact List.mem_of_head? hc
  · rw [← List.append_assoc, List.getLast?_append_of_ne_nil _ hy.ne_nil] at hc
    exact List.mem_of_getLast? hc

theorem trim_space_cons (cs : List Char) : trim (' ' :: cs) = trim cs := rfl

/-! ## The mnemonic is what stands before the first space -/

theorem takeWhile_token {w : List Char} (hw : Token w) (cs : List Char) :
    (w ++ ' ' :: cs).takeWhile (fun c => !isBlank c) = w := by
  rw [List.takeWhile_append_of_pos fun c hc => by simp [hw.not_isBlank c hc]]
  simp [isBlank]

theorem dropWhile_token {w : List Char} (hw : Token w) (cs : List Char) :
    (w ++ ' ' :: cs).dropWhile (fun c => !isBlank c) = ' ' :: cs := by
  rw [List.dropWhile_append_of_pos fun c hc => by simp [hw.not_isBlank c hc]]
  simp [isBlank]

/-! ## The operands are the pieces between the commas -/

theorem splitComma_ne_nil (cs : List Char) : splitComma cs ≠ [] := by
  cases cs with
  | nil => simp [splitComma]
  | cons c cs =>
    unfold splitComma
    split
    · simp
    · split <;> simp

theorem splitComma_comma_cons (cs : List Char) : splitComma (',' :: cs) = [] :: splitComma cs := by
  cases h : splitComma cs with
  | nil => exact absurd h (splitComma_ne_nil cs)
  | cons w ws => simp [splitComma, h]

/-- Characters other than commas lengthen the first piece. -/
theorem splitComma_append {x cs w : List Char} {ws : List (List Char)} (hx : ∀ c ∈ x, c ≠ ',')
    (h : splitComma cs = w :: ws) : splitComma (x ++ cs) = (x ++ w) :: ws := by
  induction x with
  | nil => exact h
  | cons c x ih =>
    obtain ⟨hc, hx⟩ := List.forall_mem_cons.1 hx
    simp [splitComma, ih hx, hc]

theorem splitComma_of_no_comma {x : List Char} (hx : ∀ c ∈ x, c ≠ ',') : splitComma x = [x] := by
  simpa using splitComma_append (cs := []) hx rfl

theorem splitComma_two_tokens {x y : List Char} (hx : Token x) (hy : Token y) :
    splitComma (x ++ ',' :: ' ' :: y) = [x, ' ' :: y] := by
  have hsecond : splitComma (' ' :: y) = [' ' :: y] :=
    splitComma_of_no_comma (List.forall_mem_cons.2 ⟨by simp, hy.ne_comma⟩)
  have hcomma : splitComma (',' :: ' ' :: y) = [[], ' ' :: y] := by rw [splitComma_comma_cons, hsecond]
  simpa using splitComma_append hx.ne_comma hcomma

/-! ## A line with one operand, and with two -/

theorem parseAsm_one_operand {w x : List Char} (hw : Token w) (hx : Token x) :
    parseAsm (w ++ ' ' :: x) = do return (← formOf w oneForms) (← parseReg x) := by
  have hline : trim (w ++ ' ' :: x) = w ++ ' ' :: x := trim_token_append_token hw hx [' ']
  simp [parseAsm, hline, takeWhile_token hw, dropWhile_token hw, trim_space_cons, trim_token hx, hx.ne_nil,
    splitComma_of_no_comma hx.ne_comma]

theorem parseAsm_two_operands {w x y : List Char} (hw : Token w) (hx : Token x) (hy : Token y) :
    parseAsm (w ++ ' ' :: (x ++ ',' :: ' ' :: y)) =
      if w == "LDI".toList then do return .ldi (← parseReg x) (← parseImm y)
      else do return (← formOf w twoForms) (← parseReg x) (← parseReg y) := by
  have hline : trim (w ++ ' ' :: (x ++ ',' :: ' ' :: y)) = w ++ ' ' :: (x ++ ',' :: ' ' :: y) := by
    simpa using trim_token_append_token hw hy (' ' :: (x ++ [',', ' ']))
  have hargs : trim (x ++ ',' :: ' ' :: y) = x ++ ',' :: ' ' :: y := trim_token_append_token hx hy [',', ' ']
  simp [parseAsm, hline, takeWhile_token hw, dropWhile_token hw, trim_space_cons, hargs, splitComma_two_tokens hx hy,
    trim_token hx, trim_token hy]

/-! ## Registers and immediates -/

theorem isDigit_of_mem_decimal {n : Nat} {c : Char} (h : c ∈ Nat.toDigits 10 n) : c.isDigit = true :=
  Nat.isDigit_of_mem_toDigits (by decide) (by decide) h

theorem token_decimal (n : Nat) : Token (Nat.toDigits 10 n) :=
  ⟨Nat.toDigits_ne_nil, fun c hc => by simp [Char.isAlphanum, isDigit_of_mem_decimal hc]⟩

theorem token_printReg (v : Byte) : Token (printReg v) :=
  ⟨List.cons_ne_nil _ _, List.forall_mem_cons.2 ⟨by simp, (token_decimal v.toNat).isAlphanum⟩⟩

theorem parseReg_printReg (r : Reg) : parseReg (printReg (regByte r)) = some (regByte r) := by
  revert r
  decide

theorem parseDecimal_toDigits (n : Nat) : parseDecimal (Nat.toDigits 10 n) = some n := by
  have hdigits : (Nat.toDigits 10 n).any (fun c => !c.isDigit) = false := by
    simpa using fun c hc => isDigit_of_mem_decimal hc
  have hvalue : (Nat.toDigits 10 n).foldl (fun v c => v * 10 + (c.toNat - 48)) 0 = n := by
    simpa [Nat.ofDigitChars_eq_foldl, Nat.mul_comm 10] using Nat.ofDigitChars_ten_toDigits (n := n)
  simp [parseDecimal, Nat.toDigits_ne_nil, hdigits, hvalue]

/-- A decimal text is not read as a hexadecimal one: it has no `x`. -/
theorem parseImm_decimal (v : Byte) : parseImm (Nat.toDigits 10 v.toNat) = some v := by
  have hle : v.toNat ≤ 255 := Nat.le_of_lt_succ v.isLt
  unfold parseImm
  split
  next h l heq =>
    have hx : 'x' ∈ Nat.toDigits 10 v.toNat := by simp [heq]
    have hdigit := isDigit_of_mem_decimal hx
    simp at hdigit
  next => simp [parseDecimal_toDigits, hle]

/-! ## Each form, printed and read -/

theorem parseAsm_printR {m : String} {f : Byte → Instr} (hm : Token m.toList) (hf : formOf m.toList oneForms = some f)
    (r : Reg) : parseAsm (printR m (regByte r)) = some (f (regByte r)) := by
  rw [printR, parseAsm_one_operand hm (token_printReg _), hf, parseReg_printReg]
  rfl

theorem parseAsm_printRR {m : String} {f : Byte → Byte → Instr} (hm : Token m.toList) (hne : m.toList ≠ "LDI".toList)
    (hf : formOf m.toList twoForms = some f) (r q : Reg) :
    parseAsm (printRR m (regByte r) (regByte q)) = some (f (regByte r) (regByte q)) := by
  rw [printRR, printR, List.append_assoc, List.cons_append,
    parseAsm_two_operands hm (token_printReg _) (token_printReg _), if_neg (by simpa using hne), hf, parseReg_printReg,
    parseReg_printReg]
  rfl

theorem parseAsm_printAsm_ldi (r : Reg) (imm : Byte) :
    parseAsm (printAsm (.ldi (regByte r) imm)) = some (.ldi (regByte r) imm) := by
  have hm : Token "LDI".toList := ⟨by simp, by simp⟩
  rw [printAsm, printR, List.append_assoc, List.cons_append,
    parseAsm_two_operands hm (token_printReg _) (token_decimal _), if_pos BEq.rfl, parseReg_printReg, parseImm_decimal]
  rfl

/-- R62: an operand byte 0..7 names a register. -/
theorem exists_eq_regByte {v : Byte} (h : v.toNat < 8) : ∃ r : Reg, v = regByte r :=
  ⟨⟨v.toNat, h⟩, BitVec.eq_of_toNat_eq (regByte_toNat ⟨v.toNat, h⟩).symm⟩

/-- R70, from an instruction: its form's line, with each register operand as a register name. -/
theorem parseAsm_printAsm {i : Instr} (h : i.regsInRange = true) : parseAsm (printAsm i) = some i := by
  simp only [Instr.regsInRange, List.all_eq_true, decide_eq_true_eq] at h
  cases i with
  | hlt | ret => decide
  | ldi a imm =>
    obtain ⟨r, rfl⟩ := exists_eq_regByte (h a (by simp [Instr.regOperands]))
    exact parseAsm_printAsm_ldi r imm
  | prn a | not a | jmp a | jeq a | jne a | push a | pop a | call a =>
    obtain ⟨r, rfl⟩ := exists_eq_regByte (h a (by simp [Instr.regOperands]))
    exact parseAsm_printR ⟨by simp, by simp⟩ rfl r
  | mul a b | add a b | mod a b | cmp a b | and a b | or a b | xor a b | shl a b | shr a b =>
    obtain ⟨r, rfl⟩ := exists_eq_regByte (h a (by simp [Instr.regOperands]))
    obtain ⟨q, rfl⟩ := exists_eq_regByte (h b (by simp [Instr.regOperands]))
    exact parseAsm_printRR ⟨by simp, by simp⟩ (by simp) rfl r q

/-- Settles O49: by `parseAsm_printAsm`; to assemble is to read, then to encode. -/
theorem assemblyTextReadsBack : Obligations.AssemblyTextReadsBack := by
  intro i h
  have hp := parseAsm_printAsm h
  exact ⟨hp, by rw [assemble, hp, Option.map_some]⟩

end Sys2Proof.Machine

/-! SUPPORT. The statements of 40_execution_cycle.md: fetch, decoding and operand fetch, the register check before any
read, where pc goes, and runs. -/

namespace Sys2Proof.Machine

/-! ## Fetch

IR is written before decoding, and no read and no decoding looks at it. -/

@[simp] theorem memRead_setIr (s : State) (v : Byte) (a : Nat) : memRead (s.setIr v) a = memRead s a := rfl

@[simp] theorem decodeAt_setIr (s : State) (v op : Byte) : decodeAt (s.setIr v) op = decodeAt s op := rfl

theorem step_fetch_fault {s : State} {f : FaultRecord} (hr : s.status = .running) (hf : memRead s s.pc = .error f) :
    step s = .next (takeFault f s) := by
  simp only [step_running hr, fetchOpcode, hf]

theorem step_decode_fault {s : State} {f : FaultRecord} (hr : s.status = .running) (hc : CellReadable s s.pc)
    (hd : decodeAt s (cellValue s s.pc) = .error f) :
    step s = .next (takeFault f (s.setIr (cellValue s s.pc))) := by
  simp only [step_running hr, fetchOpcode, memRead_readable hc, decodeAt_setIr, hd]

/-! ## A step from RUNNING answers -/

/-- No arm of `exec` refuses or stops: each ends in a commit (R86). -/
theorem exec_eq_commit (i : Instr) (s : State) : ∃ r, exec i s = commit s r := by
  cases i with
  | hlt => exact ⟨.ok _, rfl⟩
  | _ => exact ⟨_, rfl⟩

theorem exec_answers (i : Instr) (s : State) : ∃ t, exec i s = .next t := by
  obtain ⟨r, hr⟩ := exec_eq_commit i s
  obtain ⟨t, ht, -⟩ := commit_next s r
  exact ⟨t, hr.trans ht⟩

/-- Settles O12: a fault of the fetch or of decoding is taken as a next state, and every instruction answers one. -/
theorem runningStepsAlwaysAnswer : Obligations.RunningStepsAlwaysAnswer := by
  intro s hr
  obtain ⟨-, e⟩ | ⟨hc, -⟩ | ⟨-, -, e⟩ := memRead_cases s s.pc
  · exact ⟨_, step_fetch_fault hr e⟩
  · cases hd : decodeAt s (cellValue s s.pc) with
    | error f => exact ⟨_, step_decode_fault hr hc hd⟩
    | ok i =>
      obtain ⟨t, ht⟩ := exec_answers i (s.setIr (cellValue s s.pc))
      exact ⟨t, (step_eq_exec hr hc hd).trans ht⟩
  · exact ⟨_, step_fetch_fault hr e⟩

/-- IR belongs to the fetch: no instruction writes it, and a fault keeps it. -/
theorem exec_ir {i : Instr} {s t : State} (h : exec i s = .next t) : t.ir = s.ir := by
  obtain ⟨f, -, rfl⟩ | ⟨u, p, rfl, hw, -⟩ := exec_writes h
  · rfl
  · exact hw.frame.2.1

/-- Settles O8: the two faults are those of the memory read at pc; a step without a fault has put the byte at pc into IR
and executed an instruction. -/
theorem fetchReadsTheOpcodeByte : Obligations.FetchReadsTheOpcodeByte := by
  intro s hr
  refine ⟨fun hpc => step_fetch_fault hr (memRead_outside s hpc),
    fun hpc hno => step_fetch_fault hr (memRead_unreadable hpc hno), fun _ => ?_⟩
  obtain ⟨t, ht⟩ := runningStepsAlwaysAnswer s hr
  refine ⟨t, ht, fun hnf => ?_⟩
  obtain ⟨-, ⟨f, -, -, rfl⟩ | ⟨-, ⟨f, -, rfl⟩ | ⟨i, -, he⟩⟩⟩ := step_cases ht
  · exact absurd (takeFault_status f s) hnf
  · exact absurd (takeFault_status f _) hnf
  · exact exec_ir he

/-! ## Decoding and operand fetch -/

theorem length_encode (i : Instr) : (encode i).length = i.length := by
  cases i <;> rfl

/-- The bytes of the instruction's encoding can be read from pc on. -/
def CodeAtPc (s : State) (i : Instr) : Prop :=
  ∀ (k : Nat) (b : Byte), (encode i)[k]? = some b → memRead s (s.pc + k) = .ok b

/-- The entry that makes an instruction fetches its operand bytes and no others (R83). -/
theorem fetchOperands_makes {s : State} {i : Instr} {sh : Shape} (hm : sh.Makes i) (hb : CodeAtPc s i) :
    fetchOperands s sh = .ok i := by
  cases sh with
  | n j =>
    obtain ⟨rfl, -⟩ := hm
    rfl
  | r f =>
    obtain ⟨a, hf, henc⟩ := hm
    have ha : memRead s (s.pc + 1) = .ok a := hb 1 a (by simp [henc])
    simp [fetchOperands, ha, hf]
  | rr f | ri f =>
    obtain ⟨a, b, hf, henc⟩ := hm
    have ha : memRead s (s.pc + 1) = .ok a := hb 1 a (by simp [henc])
    have hb' : memRead s (s.pc + 2) = .ok b := hb 2 b (by simp [henc])
    simp [fetchOperands, ha, hb', hf]

/-- The first operand byte that cannot be read raises its fault (R83). -/
theorem fetchOperands_fault {s : State} {i : Instr} {sh : Shape} {k : Nat} {f : FaultRecord} (hm : sh.Makes i)
    (hk : 1 ≤ k) (hki : k < i.length) (hread : ∀ j, 1 ≤ j → j < k → CellReadable s (s.pc + j))
    (hf : memRead s (s.pc + k) = .error f) : fetchOperands s sh = .error f := by
  rw [← length_encode] at hki
  cases sh with
  | n j =>
    obtain ⟨-, henc⟩ := hm
    simp [henc] at hki
    omega
  | r g =>
    obtain ⟨a, -, henc⟩ := hm
    simp [henc] at hki
    obtain rfl : k = 1 := by omega
    simp [fetchOperands, hf]
  | rr g | ri g =>
    obtain ⟨a, b, -, henc⟩ := hm
    simp [henc] at hki
    obtain rfl | rfl : k = 1 ∨ k = 2 := by omega
    · simp [fetchOperands, hf]
    · simp [fetchOperands, memRead_readable (hread 1 (by omega) (by omega)), hf]

/-- The opcode byte of an instruction of the configuration selects the entry that makes it (R82). -/
theorem decodeAt_present {s : State} {i : Instr} (hp : i.present s.config = true) :
    ∃ sh, sh.Makes i ∧ decodeAt s i.opcode = fetchOperands s sh := by
  obtain ⟨sh, hd, hm⟩ := dispatch_present hp
  exact ⟨sh, hm, by simp only [decodeAt, hd]⟩

theorem encode_getElem?_zero (i : Instr) : (encode i)[0]? = some i.opcode := by
  cases i <;> rfl

/-- A step runs the instruction whose encoding stands at pc. -/
theorem step_codeAtPc {s : State} {i : Instr} (hr : s.status = .running) (hp : i.present s.config = true)
    (hb : CodeAtPc s i) : step s = exec i (s.setIr i.opcode) := by
  obtain ⟨hc, hop⟩ := memRead_eq_ok (hb 0 i.opcode (encode_getElem?_zero i))
  obtain ⟨sh, hm, hd⟩ := decodeAt_present hp
  rw [fetchOperands_makes hm hb, hop] at hd
  rw [hop]
  exact step_eq_exec hr hc hd

/-- What the decoder is given are the bytes read from an address on. -/
theorem memRead_of_codeBytes {s : State} {n a k : Nat} {b : Byte} (h : (codeBytes s a n)[k]? = some b) :
    memRead s (a + k) = .ok b := by
  induction n generalizing a k with
  | zero => simp [codeBytes] at h
  | succ n ih =>
    cases hm : memRead s a with
    | error f => simp [codeBytes, hm] at h
    | ok c =>
      simp only [codeBytes, hm] at h
      cases k with
      | zero =>
        obtain rfl : c = b := by simpa using h
        exact hm
      | succ k =>
        rw [List.getElem?_cons_succ] at h
        rw [show a + (k + 1) = a + 1 + k by omega]
        exact ih h

/-- Settles O7: bytes that decode to an instruction are its encoding, so that encoding stands at pc. -/
theorem stepRunsTheDecodedInstruction : Obligations.StepRunsTheDecodedInstruction := by
  intro s i rest hr hd
  obtain ⟨hp, hbytes⟩ := decode_eq_ok hd
  refine step_codeAtPc hr hp fun k b hk => memRead_of_codeBytes (n := 3) ?_
  obtain ⟨hlt, -⟩ := List.getElem?_eq_some_iff.1 hk
  rw [hbytes, List.getElem?_append_left hlt, hk]

/-- A step faults with the first operand byte that cannot be read. -/
theorem step_operand_fault {s : State} {i : Instr} {k : Nat} {f : FaultRecord} (hr : s.status = .running)
    (hp : i.present s.config = true) (hc : CellReadable s s.pc) (hop : cellValue s s.pc = i.opcode) (hk : 1 ≤ k)
    (hki : k < i.length) (hread : ∀ j, 1 ≤ j → j < k → CellReadable s (s.pc + j))
    (hf : memRead s (s.pc + k) = .error f) : step s = .next (takeFault f (s.setIr (cellValue s s.pc))) := by
  obtain ⟨sh, hm, hd⟩ := decodeAt_present hp
  rw [fetchOperands_fault hm hk hki hread hf, ← hop] at hd
  exact step_decode_fault hr hc hd

/-- Settles O9: the faults are those of the memory read at the operand's address; bytes that can be read and are the
encoding are code at pc. -/
theorem operandBytesAreReadInOrder : Obligations.OperandBytesAreReadInOrder := by
  intro s i hr hp hc hop
  refine ⟨fun k hk hki hread => ⟨fun hout => ?_, fun hin hno => ?_⟩, fun hall => ?_⟩
  · exact ⟨_, step_operand_fault hr hp hc hop hk hki hread (memRead_outside s hout)⟩
  · exact ⟨_, step_operand_fault hr hp hc hop hk hki hread (memRead_unreadable hin hno)⟩
  · refine step_codeAtPc hr hp fun k b hk => ?_
    obtain ⟨hlt, -⟩ := List.getElem?_eq_some_iff.1 hk
    obtain ⟨hck, hval⟩ := hall k (length_encode i ▸ hlt)
    rw [memRead_readable hck, Option.some.inj (hval.symm.trans hk)]

/-! ## The register check

R84: each meaning checks its register operands first, so an operand above 7 ends its computation. -/

theorem commit_bind_error {α : Type} {s : State} {r : Exec α} {f : FaultRecord} {k : α → Exec State}
    (h : r = .error f) : commit s (r >>= k) = .next (takeFault f s) := by
  rw [h]
  rfl

theorem regOperand_first_outside {a v : Byte} (s : State) (h : [a].find? (fun w => decide (7 < w.toNat)) = some v) :
    regOperand s a = .error (.registerBounds s.pc v) := by
  obtain ⟨ha, rfl⟩ : 7 < a.toNat ∧ a = v := by simpa [List.find?_singleton] using h
  exact regOperand_outside s ha

/-- The ALU checks both indices, `a` first, before it reads either register. -/
theorem aluOperands_first_outside {a b v : Byte} (op : AluOp) (s : State)
    (h : [a, b].find? (fun w => decide (7 < w.toNat)) = some v) :
    aluOperands op a b s = .error (.registerBounds s.pc v) := by
  obtain ⟨r, rfl, ha⟩ | ⟨hlt, ha⟩ := regOperand_cases s a
  · have hr : ¬ 7 < (regByte r).toNat := by rw [regByte_toNat]; omega
    rw [List.find?_cons_of_neg (by simpa using hr)] at h
    simp only [aluOperands, ha, regOperand_first_outside s h, Exec.ok_bind, Exec.error_bind]
  · rw [List.find?_cons_of_pos (by simpa using hlt)] at h
    cases h
    simp only [aluOperands, ha, Exec.error_bind]

/-- Settles O10: an instruction with register operands begins with their check, of one operand or of the ALU's two. -/
theorem registerBoundsComesBeforeAnyRead : Obligations.RegisterBoundsComesBeforeAnyRead := by
  intro i s v h
  cases i with
  | hlt | ret => cases h
  | ldi a | prn a | not a | jmp a | jeq a | jne a | push a | pop a | call a =>
    exact commit_bind_error (regOperand_first_outside s h)
  | mul a b | add a b | mod a b | cmp a b | and a b | or a b | xor a b | shl a b | shr a b =>
    exact commit_bind_error (aluOperands_first_outside _ s h)

/-! ## Where pc goes -/

/-- An instruction that does not set pc directly goes to the next one (R89). -/
theorem Effect.pc_eq_add_length {i : Instr} {s t : State} (h : Effect i s t) (hi : setsPc i = false) :
    t.pc = s.pc + i.length := by
  cases i with
  | hlt => rw [h]; rfl
  | prn a => obtain ⟨v, rfl⟩ := h; rfl
  | cmp a b => obtain ⟨v, -, rfl⟩ := h; rfl
  | ldi a b | mul a b | add a b | mod a b | and a b | or a b | xor a b | shl a b | shr a b | not a =>
    obtain ⟨r, v, -, rfl⟩ := h
    rfl
  | push a => obtain ⟨-, v, rfl⟩ := h; rfl
  | pop a => obtain ⟨r, v, w, -, rfl⟩ := h; rfl
  | jmp | jeq | jne | call | ret => cases hi

/-- Settles O39: an instruction that completes has its `Effect`; of a conditional jump's two clauses E selects one. -/
theorem pcAdvancesByTheLength : Obligations.PcAdvancesByTheLength := by
  intro i s t _ h hnf
  obtain ⟨f, -, rfl⟩ | he := exec_cases h
  · exact absurd (takeFault_status f s) hnf
  · refine ⟨he.pc_eq_add_length, ?_, ?_⟩
    all_goals
      rintro a rfl hE
      obtain ⟨htaken, -⟩ | ⟨-, rfl⟩ := he
      · exact absurd (htaken.symm.trans hE) nofun
      · rfl

/-! ## Runs -/

theorem run_succ_of_step {s t : State} (h : step s = .next t) (n : Nat) : run (n + 1) s = run n t := by
  simp only [run, h]

/-- A state without a next state ends the run. -/
theorem run_of_no_step {s : State} (h : ∀ t, step s ≠ .next t) (n : Nat) : run n s = s := by
  cases n with
  | zero => rfl
  | succ n =>
    cases hs : step s with
    | next t => exact absurd hs (h t)
    | fault r | refused r => simp only [run, hs]

/-- R88: a step leaves RUNNING states only. -/
theorem run_of_not_running {s : State} (h : s.status ≠ .running) (n : Nat) : run n s = s :=
  run_of_no_step (fun _ ht => h (step_cases ht).1) n

theorem run_add (m n : Nat) (s : State) : run (m + n) s = run n (run m s) := by
  induction m generalizing s with
  | zero => rw [Nat.zero_add]; rfl
  | succ m ih =>
    by_cases h : ∃ t, step s = .next t
    · obtain ⟨t, ht⟩ := h
      rw [Nat.add_right_comm, run_succ_of_step ht, run_succ_of_step ht, ih]
    · have hend := run_of_no_step (not_exists.1 h)
      rw [hend, hend, hend]

/-- Settles O46: `run_add`, and a terminal state has no step. -/
theorem runsComposeAndEndInTerminalStates : Obligations.RunsComposeAndEndInTerminalStates :=
  ⟨run_add, fun n _ h => run_of_not_running h n⟩

/-! ## A jump to itself -/

/-- A RUNNING state with a JMP at pc through a readable register that holds pc. -/
structure JumpsToItself (a : Reg) (s : State) : Prop where
  running : s.status = .running
  opcode : Memory.lookup s.mem s.pc = some 0x54
  inMemory : s.pc + 1 ≤ 255
  operand : Memory.lookup s.mem (s.pc + 1) = some (regByte a)
  readable : Readable s a
  target : (regValue s a).toNat = s.pc

theorem JumpsToItself.codeAtPc {a : Reg} {s : State} (h : JumpsToItself a s) : CodeAtPc s (.jmp (regByte a)) := by
  have hpc := h.inMemory
  intro k b hk
  match k with
  | 0 =>
    cases hk
    exact memRead_written (by omega) h.opcode
  | 1 =>
    cases hk
    exact memRead_written hpc h.operand
  | _ + 2 => cases hk

/-- R140. -/
theorem exec_jmp_readable {s : State} {a : Reg} (h : Readable s a) :
    exec (.jmp (regByte a)) s = .next (s.setPc (regValue s a).toNat) := by
  simp [exec, execJmp, jumpTo, readReg_readable h]

/-- The step sets pc to itself, and IR, on which none of the premises depends. -/
theorem JumpsToItself.step_setIr {a : Reg} {s : State} (h : JumpsToItself a s) :
    step s = .next (s.setIr 0x54) ∧ JumpsToItself a (s.setIr 0x54) := by
  refine ⟨?_, ⟨h.running, h.opcode, h.inMemory, h.operand, h.readable, h.target⟩⟩
  have hexec : exec (.jmp (regByte a)) (s.setIr 0x54) = .next ((s.setIr 0x54).setPc (regValue s a).toNat) :=
    exec_jmp_readable h.readable
  rw [step_codeAtPc h.running rfl h.codeAtPc, show (Instr.jmp (regByte a)).opcode = 0x54 from rfl, hexec, h.target]
  rfl

theorem JumpsToItself.stays {a : Reg} {s : State} (h : JumpsToItself a s) (n : Nat) :
    (run n s).status = .running ∧ (run n s).pc = s.pc := by
  induction n generalizing s with
  | zero => exact ⟨h.running, rfl⟩
  | succ n ih =>
    obtain ⟨hstep, hagain⟩ := h.step_setIr
    rw [run_succ_of_step hstep]
    exact ih hagain

/-- Settles O47: by induction on the number of steps, each of which keeps `JumpsToItself`. -/
theorem jumpToItselfRunsForever : Obligations.JumpToItselfRunsForever :=
  fun _ _ hr hop hpc harg hread htarget => (JumpsToItself.mk hr hop hpc harg hread htarget).stays

end Sys2Proof.Machine

/-! SUPPORT. The statements of 41_control_io.md: HLT, LDI and PRN. -/

namespace Sys2Proof.Machine

/-! ## HLT -/

/-- R100: HLT reads nothing, so its computation always commits. -/
theorem exec_hlt (s : State) : exec .hlt s = .next (s.halt.setPc (s.pc + 1)) := rfl

/-- Settles O17: `exec_hlt`, with its two updates written out. -/
theorem hltHaltsAndAdvances : Obligations.HltHaltsAndAdvances := ⟨rfl, exec_hlt⟩

/-! ## LDI -/

/-- R101: LDI reads no register, so a destination in range is all it needs. -/
theorem exec_ldi_regByte (s : State) (a : Reg) (imm : Byte) :
    exec (.ldi (regByte a) imm) s = .next ((s.setReg a imm).setPc (s.pc + 3)) := by
  simp [exec, execLdi, immOperand]

/-- Settles O18: `exec_ldi_regByte`, with its two updates written out. -/
theorem ldiLoadsTheImmediate : Obligations.LdiLoadsTheImmediate :=
  fun s a imm => ⟨rfl, exec_ldi_regByte s a imm⟩

/-! ## PRN -/

/-- R102. -/
theorem exec_prn_readable {s : State} {a : Reg} (h : Readable s a) :
    exec (.prn (regByte a)) s = .next ((s.emit (regValue s a)).setPc (s.pc + 2)) := by
  simp [exec, execPrn, readReg_readable h]

/-- R86, R102: the read comes before the emission, so a read that faults emits nothing. -/
theorem exec_prn_unreadable {s : State} {a : Reg} (h : ¬ Readable s a) :
    exec (.prn (regByte a)) s = .next (takeFault (.uninitRegister s.pc a) s) := by
  simp [exec, execPrn, readReg_unreadable h]

/-- Settles O19: the two outcomes of the register read, each with its updates written out. -/
theorem prnEmitsTheRegister : Obligations.PrnEmitsTheRegister :=
  fun _ _ => ⟨rfl, exec_prn_readable, exec_prn_unreadable⟩

end Sys2Proof.Machine

/-! SUPPORT. The statements of 42_alu.md: the ALU's instructions on registers in range. -/

namespace Sys2Proof.Machine

/-! ## Two operands

R111: the two reads, in order, then the ALU.  MUL, ADD, MOD, AND, OR, XOR, SHL and SHR are `commit s (aluToReg op a b s)`
by definition; CMP begins with the same reads. -/

theorem commit_aluToReg_ok {op : AluOp} {s : State} {a b : Reg} {v : Byte} (ha : Readable s a) (hb : Readable s b)
    (hv : alu s.pc op (regValue s a) (regValue s b) = .ok v) :
    commit s (aluToReg op (regByte a) (regByte b) s) = .next ((s.setReg a v).setPc (s.pc + 3)) := by
  simp [aluToReg, aluOperands_readable ha hb, hv]

theorem commit_aluToReg_error {op : AluOp} {s : State} {a b : Reg} {f : FaultRecord} (ha : Readable s a)
    (hb : Readable s b) (hf : alu s.pc op (regValue s a) (regValue s b) = .error f) :
    commit s (aluToReg op (regByte a) (regByte b) s) = .next (takeFault f s) := by
  simp [aluToReg, aluOperands_readable ha hb, hf]

/-- R86, R111: a computation that begins with the ALU's two reads takes the fault of the first that cannot be made. -/
theorem commit_aluOperands_unreadable {op : AluOp} {s : State} {a b : Reg} {k : Reg × Byte → Exec State} :
    (¬ Readable s a → commit s (aluOperands op (regByte a) (regByte b) s >>= k) =
      .next (takeFault (.uninitRegister s.pc a) s)) ∧
    (Readable s a → ¬ Readable s b → commit s (aluOperands op (regByte a) (regByte b) s >>= k) =
      .next (takeFault (.uninitRegister s.pc b) s)) :=
  ⟨fun ha => commit_bind_error (aluOperands_unreadable_fst ha),
    fun ha hb => commit_bind_error (aluOperands_unreadable_snd ha hb)⟩

/-- R111 for an operation that gives every pair of values a result. -/
theorem aluRule_of_alu {mk : Byte → Byte → Instr} {op : AluOp} {f : Nat → Nat → Nat}
    (hmk : ∀ a b s, exec (mk a b) s = commit s (aluToReg op a b s))
    (hop : ∀ p x y, alu p op x y = .ok (BitVec.ofNat 8 (f x.toNat y.toNat))) : AluRule mk f := by
  intro s a b
  rw [hmk]
  exact ⟨fun ha hb => commit_aluToReg_ok ha hb (hop ..), commit_aluOperands_unreadable⟩

/-- A value reduced to 8 bits may be reduced modulo 256 first (R113). -/
theorem byte_ofNat_mod_256 (n : Nat) : BitVec.ofNat 8 (n % 256) = BitVec.ofNat 8 n :=
  BitVec.eq_of_toNat_eq (by simp)

/-! ## MUL and ADD -/

/-- R115. -/
theorem alu_mul (p : Nat) (x y : Byte) : alu p .mul x y = .ok (BitVec.ofNat 8 (x.toNat * y.toNat % 256)) :=
  congrArg Except.ok (byte_ofNat_mod_256 _).symm

/-- R116. -/
theorem alu_add (p : Nat) (x y : Byte) : alu p .add x y = .ok (BitVec.ofNat 8 ((x.toNat + y.toNat) % 256)) :=
  congrArg Except.ok (byte_ofNat_mod_256 _).symm

/-- Settles O20: R111 for `alu_mul` and `alu_add`. -/
theorem mulAndAddWrapModulo256 : Obligations.MulAndAddWrapModulo256 :=
  ⟨fun _ _ => rfl, aluRule_of_alu (fun _ _ _ => rfl) alu_mul, fun _ _ => rfl, aluRule_of_alu (fun _ _ _ => rfl) alu_add⟩

/-! ## The bitwise instructions -/

/-- The ALU's AND, OR and XOR are operations on bytes; the statements have them on the bytes' values. -/
theorem byte_eq_ofNat {z : Byte} {n : Nat} (h : z.toNat = n) : z = BitVec.ofNat 8 n := by
  rw [← h, BitVec.ofNat_toNat, BitVec.setWidth_eq]

/-- R122. -/
theorem alu_and (p : Nat) (x y : Byte) : alu p .and x y = .ok (BitVec.ofNat 8 (x.toNat &&& y.toNat)) :=
  congrArg Except.ok (byte_eq_ofNat (BitVec.toNat_and x y))

/-- R123. -/
theorem alu_or (p : Nat) (x y : Byte) : alu p .or x y = .ok (BitVec.ofNat 8 (x.toNat ||| y.toNat)) :=
  congrArg Except.ok (byte_eq_ofNat (BitVec.toNat_or x y))

/-- R124. -/
theorem alu_xor (p : Nat) (x y : Byte) : alu p .xor x y = .ok (BitVec.ofNat 8 (x.toNat ^^^ y.toNat)) :=
  congrArg Except.ok (byte_eq_ofNat (BitVec.toNat_xor x y))

/-- Settles O21: R111 for `alu_and`, `alu_or` and `alu_xor`. -/
theorem andOrXorCombineTheRegisters : Obligations.AndOrXorCombineTheRegisters :=
  ⟨fun _ _ => rfl, aluRule_of_alu (fun _ _ _ => rfl) alu_and, fun _ _ => rfl, aluRule_of_alu (fun _ _ _ => rfl) alu_or,
    fun _ _ => rfl, aluRule_of_alu (fun _ _ _ => rfl) alu_xor⟩

/-- R125. -/
theorem exec_not_readable {s : State} {a : Reg} (h : Readable s a) :
    exec (.not (regByte a)) s =
      .next ((s.setReg a (BitVec.ofNat 8 (255 - (regValue s a).toNat))).setPc (s.pc + 2)) := by
  simp [exec, execNot, readReg_readable h, alu]

theorem exec_not_unreadable {s : State} {a : Reg} (h : ¬ Readable s a) :
    exec (.not (regByte a)) s = .next (takeFault (.uninitRegister s.pc a) s) := by
  simp [exec, execNot, readReg_unreadable h]

/-- Settles O27: the two outcomes of the register read, each with its updates written out. -/
theorem notComplementsTheRegister : Obligations.NotComplementsTheRegister :=
  fun _ _ => ⟨rfl, exec_not_readable, exec_not_unreadable⟩

/-- R125: the complement of the 8 bits. -/
theorem byte_ofNat_255_sub (x : Byte) : BitVec.ofNat 8 (255 - x.toNat) = ~~~x :=
  BitVec.eq_of_toNat_eq (by simp; omega)

/-- Settles O22: each of the four instructions completes with the operation on bytes, which is bit by bit. -/
theorem bitwiseResultsAreBitByBit : Obligations.BitwiseResultsAreBitByBit := by
  intro s a b k hk ha hb
  refine ⟨⟨_, commit_aluToReg_ok (op := .and) ha hb rfl, ?_⟩, ⟨_, commit_aluToReg_ok (op := .or) ha hb rfl, ?_⟩,
    ⟨_, commit_aluToReg_ok (op := .xor) ha hb rfl, ?_⟩, ⟨_, exec_not_readable ha, ?_⟩⟩
  · simp
  · simp
  · simp
  · simp [byte_ofNat_255_sub, hk]

/-! ## SHL and SHR -/

/-- R130. -/
theorem alu_shl (p : Nat) (x y : Byte) : alu p .shl x y = .ok (BitVec.ofNat 8 (x.toNat * 2 ^ y.toNat % 256)) := by
  rw [byte_ofNat_mod_256, ← Nat.shiftLeft_eq]
  rfl

/-- R131. -/
theorem alu_shr (p : Nat) (x y : Byte) : alu p .shr x y = .ok (BitVec.ofNat 8 (x.toNat / 2 ^ y.toNat)) := by
  rw [← Nat.shiftRight_eq_div_pow]
  rfl

/-- R130, R131: without SHIFTS_ENABLED neither byte is in the table. -/
theorem dispatch_shifts_disabled {c : Config} (h : c.shiftsEnabled = false) :
    dispatch c 0xAC = none ∧ dispatch c 0xAD = none := by
  obtain ⟨_, _⟩ := c
  cases h
  exact ⟨rfl, rfl⟩

theorem step_decodeError_of_cell {s : State} {op : Byte} (hr : s.status = .running) (hc : CellReadable s s.pc)
    (hd : dispatch s.config op = none) (hop : cellValue s s.pc = op) :
    ∃ v, step s = .next (Faulted { s with ir := v } (.decodeError op s.pc)) := by
  subst hop
  exact ⟨_, step_decodeError hr hc hd⟩

/-- Settles O23: R111 for `alu_shl` and `alu_shr`; without SHIFTS_ENABLED the dispatcher has no row for either byte. -/
theorem shiftsUseTheWholeAmount : Obligations.ShiftsUseTheWholeAmount := by
  refine ⟨fun _ _ => rfl, aluRule_of_alu (fun _ _ _ => rfl) alu_shl, fun _ _ => rfl,
    aluRule_of_alu (fun _ _ _ => rfl) alu_shr, fun s hr hs hc => ?_⟩
  obtain ⟨hshl, hshr⟩ := dispatch_shifts_disabled hs
  exact ⟨step_decodeError_of_cell hr hc hshl, step_decodeError_of_cell hr hc hshr⟩

/-! ## MOD -/

/-- R117. -/
theorem alu_mod_of_ne_zero (p : Nat) (x : Byte) {y : Byte} (h : y ≠ 0) :
    alu p .mod x y = .ok (BitVec.ofNat 8 (x.toNat % y.toNat)) :=
  if_neg (BitVec.toNat_ne_iff_ne.2 h)

theorem alu_mod_zero (p : Nat) (x : Byte) : alu p .mod x 0 = .error (.divisionByZero p) := rfl

/-- Settles O24: the divisor is looked at after the two reads. -/
theorem modTakesTheUnsignedRemainder : Obligations.ModTakesTheUnsignedRemainder := fun s _ _ =>
  ⟨rfl, fun ha hb h => commit_aluToReg_ok ha hb (alu_mod_of_ne_zero s.pc _ h),
    fun ha hb h => commit_aluToReg_error ha hb (h ▸ alu_mod_zero s.pc _), commit_aluOperands_unreadable⟩

/-! ## CMP -/

/-- Settles O25: FL's new value, written out, is `flValue`. -/
theorem cmpWritesTheWholeFlagsRegister : Obligations.CmpWritesTheWholeFlagsRegister :=
  fun _ _ _ => ⟨rfl, exec_cmp_readable, commit_aluOperands_unreadable⟩

end Sys2Proof.Machine

/-! SUPPORT. The statements of 43_branch.md: JMP, JEQ and JNE. -/

namespace Sys2Proof.Machine

/-! ## JMP -/

theorem exec_jmp_unreadable {s : State} {a : Reg} (h : ¬ Readable s a) :
    exec (.jmp (regByte a)) s = .next (takeFault (.uninitRegister s.pc a) s) := by
  simp [exec, execJmp, jumpTo, readReg_unreadable h]

/-- Settles O28: the two outcomes of the register read, each with its update written out. -/
theorem jmpJumpsToTheRegister : Obligations.JmpJumpsToTheRegister :=
  fun _ _ => ⟨rfl, exec_jmp_readable, exec_jmp_unreadable⟩

/-! ## JEQ and JNE

Both are `jumpIf`, on E and on its complement.  Once its operand is in range, a jump that is taken is JMP, with JMP's read
and its fault; one that is not taken reads no register. -/

theorem commit_jumpIf_taken {c : Bool} (hc : c = true) (s : State) (a : Reg) :
    commit s (jumpIf c (regByte a) s) = exec (.jmp (regByte a)) s := by
  simp [jumpIf, hc, exec, execJmp]

theorem commit_jumpIf_not_taken {c : Bool} (hc : c = false) (s : State) (a : Reg) :
    commit s (jumpIf c (regByte a) s) = .next (s.setPc (s.pc + 2)) := by
  simp [jumpIf, hc]

/-- R141: with E set JEQ is JMP. -/
theorem exec_jeq_equal {s : State} (hE : flagE s.fl = true) (a : Reg) :
    exec (.jeq (regByte a)) s = exec (.jmp (regByte a)) s := commit_jumpIf_taken hE s a

/-- R141: with E clear JEQ goes to the next instruction. -/
theorem exec_jeq_not_equal {s : State} (hE : flagE s.fl = false) (a : Reg) :
    exec (.jeq (regByte a)) s = .next (s.setPc (s.pc + 2)) := commit_jumpIf_not_taken hE s a

/-- R142: with E set JNE goes to the next instruction. -/
theorem exec_jne_equal {s : State} (hE : flagE s.fl = true) (a : Reg) :
    exec (.jne (regByte a)) s = .next (s.setPc (s.pc + 2)) := commit_jumpIf_not_taken (by simp [hE]) s a

/-- R142: with E clear JNE is JMP. -/
theorem exec_jne_not_equal {s : State} (hE : flagE s.fl = false) (a : Reg) :
    exec (.jne (regByte a)) s = exec (.jmp (regByte a)) s := commit_jumpIf_taken (by simp [hE]) s a

/-- Settles O29: of JEQ and JNE one is JMP and the other goes to the next instruction; both begin with
the operand's check, whatever E is (R84). -/
theorem conditionalJumpsFollowE : Obligations.ConditionalJumpsFollowE := by
  refine ⟨fun s a => ⟨rfl, rfl, fun hE => ?_, fun hE => ?_⟩, fun s v hv => ?_⟩
  · rw [exec_jeq_equal hE]
    exact ⟨exec_jmp_readable, exec_jmp_unreadable, exec_jne_equal hE a⟩
  · rw [exec_jne_not_equal hE]
    exact ⟨exec_jmp_readable, exec_jmp_unreadable, exec_jeq_not_equal hE a⟩
  · exact ⟨commit_bind_error (regOperand_outside s hv), commit_bind_error (regOperand_outside s hv)⟩

end Sys2Proof.Machine

/-! SUPPORT. The statements of 44_stack_subroutine.md: PUSH, POP, CALL, RET, and their round trips. -/

namespace Sys2Proof.Machine

/-! ## PUSH and CALL

`exec_push_readable` and `exec_call_readable` say how both complete, in a `stackStore`.  Their faults: R150's lower
bound, then CALL's own check, then the register, which is read from the working copy with the lower SP. -/

/-- R150: SP does not go below 0. -/
theorem decSp_zero {s : State} (hsp : Readable s SP) (h0 : regValue s SP = 0) :
    decSp s = .error (.stackBounds s.pc 0) := by
  rw [decSp_eq hsp, h0]
  rfl

theorem readReg_spDown_unreadable {s : State} {a : Reg} (ha : a ≠ SP) (hr : ¬ Readable s a) :
    readReg s.spDown a = .error (.uninitRegister s.pc a) := by
  have hdown : ¬ Readable s.spDown a := fun h => ((readable_setReg s SP a _).1 h).elim ha hr
  exact readReg_unreadable hdown

theorem regValue_spDown (s : State) (a : Reg) :
    regValue s.spDown a = if a = SP then regValue s SP - 1 else regValue s a := regValue_setReg s SP a _

/-- R151, R153: the byte at SP - 1 is the stored one, and no other byte changes. -/
theorem lookup_stackStore (s : State) (v : Byte) :
    Memory.lookup (s.stackStore v).mem ((regValue s SP).toNat - 1) = some v ∧
    ∀ addr, addr ≠ (regValue s SP).toNat - 1 →
      Memory.lookup (s.stackStore v).mem addr = Memory.lookup s.mem addr :=
  ⟨Memory.lookup_write_same s.mem _ v, fun _ h => Memory.lookup_write_other s.mem h.symm v⟩

theorem exec_push_sp_zero {s : State} {a : Reg} (hsp : Readable s SP) (h0 : regValue s SP = 0) :
    exec (.push (regByte a)) s = .next (takeFault (.stackBounds s.pc 0) s) := by
  simp [exec, execPush, decSp_zero hsp h0]

theorem exec_push_unreadable {s : State} {a : Reg} (hsp : Readable s SP) (h1 : 1 ≤ (regValue s SP).toNat)
    (ha : a ≠ SP) (hr : ¬ Readable s a) :
    exec (.push (regByte a)) s = .next (takeFault (.uninitRegister s.pc a) s) := by
  simp [exec, execPush, decSp_eq_spDown hsp h1, readReg_spDown_unreadable ha hr]

/-- Settles O30: the completed PUSH is a `stackStore` of the register's value after the decrement. -/
theorem pushStoresBelowSp : Obligations.PushStoresBelowSp := by
  intro s a hw
  refine ⟨rfl, fun h1 ha => ⟨_, exec_push_readable (.inl hw) h1 ha, rfl, ?_⟩, exec_push_sp_zero (.inl hw),
    exec_push_unreadable (.inl hw)⟩
  rw [← regValue_spDown]
  exact lookup_stackStore s _

theorem exec_call_sp_zero {s : State} {a : Reg} (hsp : Readable s SP) (h0 : regValue s SP = 0) :
    exec (.call (regByte a)) s = .next (takeFault (.stackBounds s.pc 0) s) := by
  simp [exec, execCall, decSp_zero hsp h0]

theorem exec_call_return_outside {s : State} {a : Reg} (hsp : Readable s SP) (h1 : 1 ≤ (regValue s SP).toNat)
    (hpc : 255 < s.pc + 2) :
    exec (.call (regByte a)) s = .next (takeFault (.returnAddressRange s.pc (s.pc + 2)) s) := by
  have hpc' : ¬ s.pc ≤ 253 := by omega
  simp [exec, execCall, decSp_eq_spDown hsp h1, hpc']

theorem exec_call_unreadable {s : State} {a : Reg} (hsp : Readable s SP) (h1 : 1 ≤ (regValue s SP).toNat)
    (hpc : s.pc + 2 ≤ 255) (ha : a ≠ SP) (hr : ¬ Readable s a) :
    exec (.call (regByte a)) s = .next (takeFault (.uninitRegister s.pc a) s) := by
  have hpc' : s.pc ≤ 253 := by omega
  simp [exec, execCall, decSp_eq_spDown hsp h1, hpc', writeTop_spDown h1, readReg_spDown_unreadable ha hr]

/-- The target of CALL: the register's value, for R7 the address of the stored return address. -/
theorem regValue_spDown_toNat {s : State} (h1 : 1 ≤ (regValue s SP).toNat) (a : Reg) :
    (regValue s.spDown a).toNat = if a = SP then (regValue s SP).toNat - 1 else (regValue s a).toNat := by
  rw [regValue_spDown, apply_ite BitVec.toNat, byte_pred_toNat _ h1]

/-- Settles O32: the completed CALL is a `stackStore` of the return address, then a jump to the register's value after
the decrement. -/
theorem callPushesTheReturnAddress : Obligations.CallPushesTheReturnAddress := by
  intro s a hw
  refine ⟨rfl, fun h1 hpc ha => ⟨_, exec_call_readable (.inl hw) h1 hpc ha, ?_, lookup_stackStore s _⟩,
    exec_call_sp_zero (.inl hw), exec_call_return_outside (.inl hw), exec_call_unreadable (.inl hw)⟩
  rw [← regValue_spDown_toNat h1]
  rfl

/-! ## POP and RET

Both read the byte SP addresses, then increment SP: RET the SP it began with, POP the one its destination's
write left. -/

/-- The byte on top of the stack. -/
def topValue (s : State) : Byte := cellValue s (regValue s SP).toNat

/-- The working copy after the increment of SP by POP and RET. -/
def State.spUp (s : State) : State := s.setReg SP (regValue s SP + 1)

theorem readTop_readable {s : State} (hsp : Readable s SP) (hc : CellReadable s (regValue s SP).toNat) :
    readTop s = .ok (topValue s) := by
  rw [readTop_eq hsp, memRead_readable hc, topValue]

/-- SP is at most 255, so only an unwritten cell can make the read fault. -/
theorem readTop_unreadable {s : State} (hsp : Readable s SP) (hc : ¬ CellReadable s (regValue s SP).toNat) :
    readTop s = .error (.uninitMemory s.pc (regValue s SP).toNat) := by
  have := (regValue s SP).isLt
  rw [readTop_eq hsp, memRead_unreadable (by omega) hc]

theorem incSp_eq_spUp {s : State} (hsp : Readable s SP) (hlt : (regValue s SP).toNat < 255) :
    incSp s = .ok s.spUp := by
  rw [incSp_eq hsp, if_pos (by omega), byte_succ, State.spUp]

/-- R150: SP does not go above 255. -/
theorem incSp_max {s : State} (hsp : Readable s SP) (hmax : regValue s SP = 255) :
    incSp s = .error (.stackBounds s.pc 255) := by
  rw [incSp_eq hsp, hmax]
  rfl

/-- The working copy after POP has written its destination with the byte on top of the stack. -/
def State.popInto (s : State) (a : Reg) : State := s.setReg a (topValue s)

theorem readable_sp_popInto {s : State} (hsp : Readable s SP) (a : Reg) : Readable (s.popInto a) SP :=
  (readable_setReg s a SP _).2 (.inr hsp)

/-- R152: the SP that POP increments is the popped byte when the destination is R7. -/
theorem regValue_sp_popInto_sp (s : State) : regValue (s.popInto SP) SP = topValue s :=
  regValue_setReg_same s SP _

theorem regValue_sp_popInto_other (s : State) {a : Reg} (ha : a ≠ SP) : regValue (s.popInto a) SP = regValue s SP :=
  regValue_setReg_other s ha _

theorem exec_pop_readable {s : State} {a : Reg} (hsp : Readable s SP) (hc : CellReadable s (regValue s SP).toNat)
    (hlt : (regValue (s.popInto a) SP).toNat < 255) :
    exec (.pop (regByte a)) s = .next ((s.popInto a).spUp.setPc (s.pc + 2)) := by
  have hinc : incSp (s.setReg a (topValue s)) = .ok (s.popInto a).spUp := incSp_eq_spUp (readable_sp_popInto hsp a) hlt
  simp [exec, execPop, readTop_readable hsp hc, hinc]

theorem exec_pop_sp_max {s : State} {a : Reg} (hsp : Readable s SP) (hc : CellReadable s (regValue s SP).toNat)
    (hmax : regValue (s.popInto a) SP = 255) :
    exec (.pop (regByte a)) s = .next (takeFault (.stackBounds s.pc 255) s) := by
  have hinc : incSp (s.setReg a (topValue s)) = .error (.stackBounds s.pc 255) :=
    incSp_max (readable_sp_popInto hsp a) hmax
  simp [exec, execPop, readTop_readable hsp hc, hinc]

theorem exec_pop_unreadable {s : State} {a : Reg} (hsp : Readable s SP)
    (hc : ¬ CellReadable s (regValue s SP).toNat) :
    exec (.pop (regByte a)) s = .next (takeFault (.uninitMemory s.pc (regValue s SP).toNat) s) := by
  simp [exec, execPop, readTop_unreadable hsp hc]

/-- The second write to a register hides the first. -/
theorem setReg_setReg_same (s : State) (r : Reg) (v w : Byte) : (s.setReg r v).setReg r w = s.setReg r w := by
  simp [State.setReg]

theorem spUp_popInto_sp (s : State) : (s.popInto SP).spUp = s.setReg SP (topValue s + 1) := by
  rw [State.spUp, regValue_sp_popInto_sp, State.popInto, setReg_setReg_same]

theorem spUp_popInto_other (s : State) {a : Reg} (ha : a ≠ SP) :
    (s.popInto a).spUp = (s.setReg a (topValue s)).setReg SP (regValue s SP + 1) := by
  rw [State.spUp, regValue_sp_popInto_other s ha, State.popInto]

/-- Settles O31: the increment is of the SP that `popInto` leaves, the popped byte for R7 and the old SP otherwise. -/
theorem popLoadsFromSp : Obligations.PopLoadsFromSp := by
  intro s a hw
  refine ⟨rfl, fun hc => ⟨fun ha hlt => ?_, fun ha hmax => ?_, ?_, ?_⟩, exec_pop_unreadable (.inl hw)⟩
  · rw [exec_pop_readable (.inl hw) hc (by rwa [regValue_sp_popInto_other s ha]), spUp_popInto_other s ha]
    rfl
  · exact exec_pop_sp_max (.inl hw) hc (by rwa [regValue_sp_popInto_other s ha])
  · rintro rfl hlt
    rw [exec_pop_readable (.inl hw) hc (by rwa [regValue_sp_popInto_sp]), spUp_popInto_sp]
    rfl
  · rintro rfl hmax
    exact exec_pop_sp_max (.inl hw) hc (by rwa [regValue_sp_popInto_sp])

theorem exec_ret_readable {s : State} (hsp : Readable s SP) (hc : CellReadable s (regValue s SP).toNat)
    (hlt : (regValue s SP).toNat < 255) : exec .ret s = .next (s.spUp.setPc (topValue s).toNat) := by
  simp [exec, execRet, readTop_readable hsp hc, incSp_eq_spUp hsp hlt]

theorem exec_ret_sp_max {s : State} (hsp : Readable s SP) (hc : CellReadable s (regValue s SP).toNat)
    (hmax : regValue s SP = 255) : exec .ret s = .next (takeFault (.stackBounds s.pc 255) s) := by
  simp [exec, execRet, readTop_readable hsp hc, incSp_max hsp hmax]

theorem exec_ret_unreadable {s : State} (hsp : Readable s SP) (hc : ¬ CellReadable s (regValue s SP).toNat) :
    exec .ret s = .next (takeFault (.uninitMemory s.pc (regValue s SP).toNat) s) := by
  simp [exec, execRet, readTop_unreadable hsp hc]

/-- Settles O33: the outcomes of the read and of the increment, each with its updates written out. -/
theorem retPopsThePc : Obligations.RetPopsThePc :=
  ⟨rfl, fun _ hw => ⟨exec_ret_readable (.inl hw), exec_ret_sp_max (.inl hw), exec_ret_unreadable (.inl hw)⟩⟩

/-! ## Round trips

What POP and RET find in the state that PUSH and CALL end in: the stored byte on top, and SP one lower. -/

theorem readable_sp_stackStore (s : State) (v : Byte) (p : Nat) : Readable ((s.stackStore v).setPc p) SP :=
  readable_sp_setReg s (regValue s SP - 1)

theorem regValue_sp_stackStore (s : State) (v : Byte) (p : Nat) :
    regValue ((s.stackStore v).setPc p) SP = regValue s SP - 1 := regValue_setReg_same s SP _

/-- From SP at least 1, the stored byte is on top of the stack and SP can be incremented again. -/
theorem stackStore_top {s : State} (h1 : 1 ≤ (regValue s SP).toNat) (v : Byte) (p : Nat) :
    CellReadable ((s.stackStore v).setPc p) (regValue ((s.stackStore v).setPc p) SP).toNat ∧
    topValue ((s.stackStore v).setPc p) = v ∧ (regValue ((s.stackStore v).setPc p) SP).toNat < 255 := by
  have := (regValue s SP).isLt
  obtain ⟨hc, hv⟩ := memRead_eq_ok (memRead_stackStore s v p)
  rw [topValue, regValue_sp_stackStore, byte_pred_toNat _ h1]
  exact ⟨hc, hv.symm, by omega⟩

/-- A written register holds its value. -/
theorem regValue_written {s : State} {r : Reg} (h : s.xWritten[r] = true) : regValue s r = s.x[r] := if_pos h

theorem getElem_setReg_same (s : State) (r : Reg) (v : Byte) : (s.setReg r v).x[r] = v := by simp

theorem getElem_setReg_other (s : State) {r q : Reg} (h : r ≠ q) (v : Byte) : (s.setReg r v).x[q] = s.x[q] :=
  Vector.getElem_set_ne r.isLt q.isLt (Fin.val_ne_of_ne h)

theorem getElem_sp_spUp (s : State) : s.spUp.x[7] = regValue s SP + 1 := getElem_setReg_same s SP _

/-- The increment of POP and RET takes back the decrement of PUSH and CALL. -/
theorem sp_stackStore_succ (s : State) (v : Byte) (p : Nat) (hw : s.xWritten[SP] = true) :
    (regValue ((s.stackStore v).setPc p) SP + 1 : Byte) = s.x[7] := by
  rw [regValue_sp_stackStore, BitVec.sub_add_cancel, regValue_written hw]
  rfl

/-- Settles O34: the `stackStore` of PUSH and of CALL meets the premises of POP and RET, and its SP is one lower than
the SP they restore. -/
theorem stackRoundTrips : Obligations.StackRoundTrips := by
  intro s hw h1
  have hsp : Readable s SP := .inl (hw SP)
  refine ⟨fun a b ha hb => ?_, fun hpc a => ?_⟩
  · obtain ⟨hc, htop, hlt⟩ := stackStore_top h1 (regValue s.spDown a) (s.pc + 2)
    refine ⟨_, _, exec_push_readable hsp h1 (.inr (.inl (hw a))), exec_pop_readable (readable_sp_stackStore s _ _) hc
      (by rwa [regValue_sp_popInto_other _ hb]), ?_, ?_⟩
    · rw [spUp_popInto_other _ hb, State.setPc_x, getElem_setReg_other _ hb.symm, getElem_setReg_same, htop,
        regValue_spDown, if_neg ha, regValue_written (hw a)]
    · rw [State.setPc_x, getElem_sp_spUp, regValue_sp_popInto_other _ hb, sp_stackStore_succ s _ _ (hw SP)]
  · obtain ⟨hc, htop, hlt⟩ := stackStore_top h1 (BitVec.ofNat 8 (s.pc + 2)) (regValue s.spDown a).toNat
    refine ⟨_, _, exec_call_readable hsp h1 (by omega) (.inr (.inl (hw a))),
      exec_ret_readable (readable_sp_stackStore s _ _) hc hlt, ?_, ?_⟩
    · rw [htop, State.setPc_pc, BitVec.toNat_ofNat, Nat.mod_eq_of_lt (by omega)]
    · rw [State.setPc_x, getElem_sp_spUp, sp_stackStore_succ s _ _ (hw SP)]

end Sys2Proof.Machine

/-! SUPPORT. The statements of 60_exceptions.md: a fault is precise, and what the engine reports at the end of a run. -/

namespace Sys2Proof.Machine

/-! ## Precise faults -/

/-- An instruction executed in RUNNING ends FAULTED only by taking a fault: no effect sets that status. -/
theorem exec_eq_takeFault {i : Instr} {s t : State} (h : exec i s = .next t) (hr : s.status = .running)
    (ht : t.status = .faulted) : ∃ f, f.pc = s.pc ∧ t = takeFault f s := by
  refine (exec_writes h).resolve_right ?_
  rintro ⟨u, p, rfl, hw, -⟩
  rw [State.setPc_status, hw.status] at ht
  split at ht
  · cases ht
  · cases hr.symm.trans ht

/-- Settles O13: a fault of any phase is taken on the state the step began with, but for IR once the opcode is
fetched. -/
theorem faultsArePrecise : Obligations.FaultsArePrecise := by
  intro s t h ht
  obtain ⟨hr, ⟨f, hf, -, rfl⟩ | ⟨-, ⟨f, hf, rfl⟩ | ⟨i, -, he⟩⟩⟩ := step_cases h
  · exact ⟨f, s.ir, rfl, hf⟩
  · exact ⟨f, cellValue s s.pc, rfl, hf⟩
  · obtain ⟨f, hf, rfl⟩ := exec_eq_takeFault he hr ht
    exact ⟨f, cellValue s s.pc, rfl, hf⟩

/-! ## The outcome -/

theorem outcome_running {s : State} (h : s.status = .running) : outcome s = none := by
  simp only [outcome, h]

theorem outcome_halted {s : State} (h : s.status = .halted) : outcome s = some .halted := by
  simp only [outcome, h]

theorem outcome_faulted {s : State} {f : FaultRecord} (h : s.status = .faulted) (hf : s.fault = some f) :
    outcome s = some (.faulted f) := by
  simp only [outcome, h, hf]

/-- R29: the record goes with the status FAULTED. -/
theorem MachineInv.status_cases {s : State} (h : MachineInv s) :
    (s.status = .running ∧ s.fault = none) ∨ (s.status = .halted ∧ s.fault = none) ∨
      (s.status = .faulted ∧ ∃ f, s.fault = some f) := by
  have hrec := h.record
  cases hs : s.status with
  | running => exact .inl ⟨rfl, h.fault_eq_none hs⟩
  | halted => exact .inr (.inl ⟨rfl, by simpa [hs] using hrec⟩)
  | faulted => exact .inr (.inr ⟨rfl, Option.isSome_iff_exists.1 (hrec.2 hs)⟩)

/-- The three outcomes of a well-formed state, one for each status (R179). -/
theorem MachineInv.outcome_iff {s : State} (h : MachineInv s) :
    (s.status = .running ↔ outcome s = none) ∧ (s.status = .halted ↔ outcome s = some .halted) ∧
      ∀ f, outcome s = some (.faulted f) ↔ s.fault = some f := by
  obtain ⟨hs, hf⟩ | ⟨hs, hf⟩ | ⟨hs, f, hf⟩ := h.status_cases
  · simp [outcome_running hs, hs, hf]
  · simp [outcome_halted hs, hs, hf]
  · simp [outcome_faulted hs hf, hs, hf]

/-- With a non-zero `exit_code_of_fault`, 0 is the exit code of Halted alone (R179). -/
theorem exitCode_eq_zero_iff {e : Nat} (he : e ≠ 0) (o : RunOutcome) : exitCode e o = 0 ↔ o = .halted := by
  cases o with
  | halted => simp [exitCode]
  | faulted f => simp [exitCode, he]

/-- Settles O48: the outcome is that of the status, the codes are the definition's rows, and the exit code is 0 for
Halted alone. -/
theorem outcomeReportsHaltedOrTheRecord : Obligations.OutcomeReportsHaltedOrTheRecord := by
  intro s h
  obtain ⟨hrunning, hhalted, hfaulted⟩ := h.outcome_iff
  refine ⟨hrunning, hhalted, hfaulted, fun _ _ => rfl, fun _ => rfl, fun _ _ => rfl, fun _ _ => rfl, fun _ _ => rfl,
    fun _ _ => rfl, fun _ _ => rfl, fun _ _ => rfl, fun e o ho he => ?_⟩
  rw [exitCode_eq_zero_iff he, hhalted, ho, Option.some_inj]

end Sys2Proof.Machine

/-! SUPPORT. The statements of 70_reset_and_hazards.md: the image load, what it keeps of reset, and the empty image. -/

namespace Sys2Proof.Machine

/-! ## Storing consecutive bytes -/

/-- A byte sequence that fits replaces the cells it covers and leaves every other cell as it was. -/
theorem Memory.lookup_storeBytes {bs : List Byte} {a : Nat} (h : a + bs.length ≤ 256) (m : Memory) (b : Nat) :
    Memory.lookup (storeBytes m a bs) b = (if a ≤ b then bs[b - a]? else none).or (Memory.lookup m b) := by
  induction bs generalizing m a with
  | nil => simp [storeBytes]
  | cons v bs ih =>
    rw [List.length_cons] at h
    rw [storeBytes, if_pos (by omega), ih (by omega)]
    obtain hb | rfl | hb := Nat.lt_trichotomy b a
    · rw [if_neg (by omega), if_neg (by omega), Memory.lookup_write_other m hb.ne']
    · simp
    · rw [if_pos (Nat.succ_le_of_lt hb), if_pos hb.le, Memory.lookup_write_other m hb.ne,
        show b - a = b - (a + 1) + 1 by omega, List.getElem?_cons_succ]

/-- No bound on the bytes is needed: what would lie above 255 is not stored. -/
theorem Memory.wf_storeBytes {m : Memory} (h : Memory.wf m = true) (a : Nat) (bs : List Byte) :
    Memory.wf (storeBytes m a bs) = true := by
  induction bs generalizing m a with
  | nil => exact h
  | cons v bs ih =>
    refine ih ?_ (a + 1)
    split
    next ha => exact Memory.wf_write m a v ha h
    next => exact h

/-! ## The image load -/

/-- R192 after R190: an image that fits is stored from address 0 on in the memory of the reset state; no other image
loads. -/
theorem boot_eq_some_iff {c : Config} {bytes : List Byte} {s : State} :
    boot c bytes = some s ↔
      bytes.length ≤ 256 ∧ s = (State.resetWith c).setMem (storeBytes (State.resetWith c).mem 0 bytes) := by
  rw [boot, loadImage, Option.ite_none_right_eq_some, Option.some_inj, eq_comm (b := s)]

theorem boot_eq_none {c : Config} {bytes : List Byte} (h : 256 < bytes.length) : boot c bytes = none :=
  if_neg h.not_ge

/-- Settles O2: the load writes memory alone, which reset leaves unwritten, so the other values are those of O1. -/
theorem bootLoadsTheImageAtZero : Obligations.BootLoadsTheImageAtZero := by
  intro c bytes
  obtain ⟨hpc, hsp, hspw, hregs, hfl, hstatus, hfault, hmem, hout, hconfig⟩ := resetHasTheSpecifiedValues.2 c
  refine ⟨boot_eq_none, fun h => ⟨_, boot_eq_some_iff.2 ⟨h, rfl⟩, fun a => ?_,
    hpc, hsp, hspw, hregs, hfl, hstatus, hfault, hout, hconfig⟩⟩
  rw [State.setMem_mem, Memory.lookup_storeBytes (by omega), hmem, if_pos a.zero_le, Option.or_none, Nat.sub_zero]

theorem MachineInv.setMem {s : State} (h : MachineInv s) {m : Memory} (hm : Memory.wf m = true) :
    MachineInv (s.setMem m) := { h with memory := hm }

/-- Settles O16: the invariant of reset (O15), and the load keeps memory canonical. -/
theorem bootIsWellFormed : Obligations.BootIsWellFormed := by
  intro c bytes s h
  obtain ⟨-, rfl⟩ := boot_eq_some_iff.1 h
  have hinv := resetIsWellFormed c
  exact hinv.setMem (Memory.wf_storeBytes hinv.memory 0 bytes)

/-! ## The empty image -/

theorem boot_nil (c : Config) : boot c [] = some (State.resetWith c) := rfl

/-- The cell at pc after reset can be read, as 0, only under UNINIT_READ = Zero. -/
theorem cellReadable_resetWith_iff (c : Config) :
    CellReadable (State.resetWith c) 0 ↔ c.uninitRead = .zero := by
  simp [CellReadable, State.resetWith]

/-- R65: the byte that an unwritten cell reads as is illegal in every configuration. -/
theorem dispatch_zero (c : Config) : dispatch c 0x00 = none :=
  (dispatch_eq_none_iff c _).2 ((illegalOpcode_iff c _).1 rfl)

/-- Settles O3: the first fetch reads the unwritten cell 0, which faults or gives the illegal opcode byte 0x00. -/
theorem emptyImageFaultsAtTheFirstFetch : Obligations.EmptyImageFaultsAtTheFirstFetch := by
  intro c
  have hread := cellReadable_resetWith_iff c
  cases hu : c.uninitRead with
  | fault =>
    have hno : ¬ CellReadable (State.resetWith c) 0 := by simp [hread, hu]
    exact ⟨_, _, boot_nil c, step_fetch_fault rfl (memRead_unreadable (Nat.zero_le 255) hno), rfl,
      fun _ => rfl, nofun⟩
  | zero =>
    exact ⟨_, _, boot_nil c, step_decodeError rfl (hread.2 hu) (dispatch_zero c), rfl, nofun, fun _ => rfl⟩

end Sys2Proof.Machine
